-- ==== Sys2Proof/Word.lean ====
section
/-! DEFINITION. Sys2Proof/Word.lean: the bit-vector types of the spec (R5, R7). All values are unsigned (R7). -/

namespace Sys2Proof

/-- A byte of a frame, an identity register, a function code: 8 bits (R5, R7). -/
abbrev Byte := BitVec 8

/-- A register address, a register count, an entry of `VAL`, a CRC value: 16 bits (R5). -/
abbrev Word := BitVec 16

/-- A command word on the command port: 48 bits, bit 47 the most significant (R55). -/
abbrev CmdWord := BitVec 48

/-- The `LEN` field of the result port: 18 bits (R5, R16). -/
abbrev Len := BitVec 18

end Sys2Proof
end

