-- ==== Sys2Proof/Config.lean ====
section
/-! DEFINITION. Sys2Proof/Config.lean: what an implementation fixes (R5) and the values the spec leaves free (R20). -/

namespace Sys2Proof

/-- The parameters of the block (R5). They are a field of the machine's state that nothing writes, so a statement over
all states is a statement over all parameter values (log 4). `CRC16` is not among them: the spec fixes it (R71, D13). -/
structure Params where
  /-- `INIT_SLAVE_ID`: `SLAVE_ID` after reset. -/
  initSlaveId : Byte
  /-- `INIT_BROADCAST_ID`: `BROADCAST_ID` after reset. -/
  initBroadcastId : Byte
  /-- `FB_CAP`: the capacity of the frame buffer in bytes, at least 8 (`Params.wf`). -/
  fbCap : Nat
  /-- `VAL_CAP`: the capacity of the value array in entries. -/
  valCap : Nat
  /-- `CRC_LOW_FIRST`: the CRC's low byte at the lower offset. The spec decides `true` and lets a model keep the field
  (R5, R26, D12). -/
  crcLowFirst : Bool
deriving DecidableEq, Repr

/-- The parameter values the spec's test vectors assume (R5, last column): DESIGN CHOICE for `State.reset` (log 4). -/
def Config.vectorParams : Params :=
  { initSlaveId := 0x05, initBroadcastId := 0x00, fbCap := 512, valCap := 256, crcLowFirst := true }

/-- FREE VALUE: the byte at an offset of `FB` that nothing has written since reset, by the reset's number and the
offset (R20, R31, R131; log 6). It has no body, so no proof can use a value of it. -/
opaque Config.freeByte : Nat → Nat → Byte

/-- FREE VALUE: the entry at an index of `VAL` that nothing has written since reset, by the reset's number and the
index (R20, R31, R131; log 6). -/
opaque Config.freeEntry : Nat → Nat → Word

end Sys2Proof
end

