-- ==== Sys2Proof/Syntax.lean ====
section
/-! DEFINITION. Sys2Proof/Syntax.lean: the ten commands, the host actions and the assembler lines. -/

namespace Sys2Proof

/-- A command of MBCODEC, one constructor per row of the opcode map (R56). A constructor holds the operands the command
uses; the operand fields it does not use are ignored (R58) and have no place here. -/
inductive Instr where
  /-- LEN.RDREQ, read request length (R80). -/
  | lenRdReq
  /-- LEN.RDRSP, read response length (R81). -/
  | lenRdRsp (rc : Word)
  /-- LEN.WRREQ, write request length (R82). -/
  | lenWrReq (rc : Word)
  /-- LEN.WRRSP, write response length (R83). -/
  | lenWrRsp
  /-- BLD.RDREQ, construct read request (R86). -/
  | bldRdReq (bc : Bool) (fc : Byte) (ra rc : Word)
  /-- BLD.WRREQ, construct write request (R88). -/
  | bldWrReq (bc : Bool) (fc : Byte) (ra rc : Word)
  /-- VAL.WRRSP, validate write response (R93). -/
  | valWrRsp (bc : Bool) (fc : Byte) (ra rc : Word)
  /-- VAL.RDRSP, validate read response (R95). -/
  | valRdRsp (bc : Bool) (fc : Byte) (rc : Word)
  /-- EXTRACT, extract registers from a read response (R98). -/
  | extract (rc : Word)
  /-- SET.SLAVE, reassign the slave identifier (R101). -/
  | setSlave (id : Byte)
deriving DecidableEq, Repr

/-- One action of the host on the block, each taken between commands (R15, R40, R55, R130). -/
inductive HostAction where
  /-- Present a command word on the command port (R55). -/
  | command (w : CmdWord)
  /-- `HOST.WRFB(off, b)` (R40). -/
  | wrFb (off : Nat) (b : Byte)
  /-- `HOST.RDFB(off)` (R40). -/
  | rdFb (off : Nat)
  /-- `HOST.WRVAL(i, v)` (R40). -/
  | wrVal (i : Nat) (v : Word)
  /-- `HOST.RDVAL(i)` (R40). -/
  | rdVal (i : Nat)
  /-- Apply reset again (R130; log 9). -/
  | reset
deriving DecidableEq, Repr

/-- The mnemonics of the opcode map (R56), for assembler lines (R60). -/
inductive Mnemonic where
  | lenRdReq | lenRdRsp | lenWrReq | lenWrRsp | bldRdReq | bldWrReq | valWrRsp | valRdRsp | extract | setSlave
deriving DecidableEq, Repr

/-- The operand names of assembler lines (R60). -/
inductive OperandName where
  | bc | fc | ra | rc | id
deriving DecidableEq, Repr

/-- An assembler line: a mnemonic followed by `name=value` pairs (R60). -/
structure AsmLine where
  mnemonic : Mnemonic
  operands : List (OperandName × Nat)
deriving DecidableEq, Repr

end Sys2Proof
end

