-- ==== Sys2Proof/WellFormed.lean ====
section
/-! DEFINITION. Sys2Proof/WellFormed.lean: which parameters, host actions and assembler lines the spec admits. An `Instr`
needs no check: its operands have exactly the widths of their fields and every value of each is legal (R54, R58). -/

namespace Sys2Proof

/-- The only constraint the spec puts on a parameter: `FB_CAP ≥ 8` (R5). -/
abbrev Params.wf (p : Params) : Prop := 8 ≤ p.fbCap

/-- A host action names a location that exists: an out-of-range offset or index is not expressible in the spec (R40). -/
def HostAction.wf (p : Params) : HostAction → Bool
  | .command _ => true
  | .wrFb off _ => decide (off < p.fbCap)
  | .rdFb off => decide (off < p.fbCap)
  | .wrVal i _ => decide (i < p.valCap)
  | .rdVal i => decide (i < p.valCap)
  | .reset => true

/-- The width in bits of the command-word field an operand name stands for (R55, R60). -/
def OperandName.width : OperandName → Nat
  | .bc => 1
  | .fc => 8
  | .ra => 16
  | .rc => 16
  | .id => 8

/-- The operands a mnemonic uses, in the order assembler lines give them (R56, R60). -/
def Mnemonic.operands : Mnemonic → List OperandName
  | .lenRdReq => []
  | .lenRdRsp => [.rc]
  | .lenWrReq => [.rc]
  | .lenWrRsp => []
  | .bldRdReq => [.bc, .fc, .ra, .rc]
  | .bldWrReq => [.bc, .fc, .ra, .rc]
  | .valWrRsp => [.bc, .fc, .ra, .rc]
  | .valRdRsp => [.bc, .fc, .rc]
  | .extract => [.rc]
  | .setSlave => [.id]

/-- An assembler line is well formed when it gives exactly the used operands in their order (R60) and each value fits
its field (DEDUCED from R55; log 15). -/
abbrev AsmLine.wf (l : AsmLine) : Prop :=
  l.operands.map Prod.fst = l.mnemonic.operands ∧ ∀ o ∈ l.operands, o.2 < 2 ^ o.1.width

end Sys2Proof
end

