-- ==== Sys2Proof/Decode.lean ====
section
/-! DEFINITION. Sys2Proof/Decode.lean: the command word (R55), the opcode map (R56, R57), the decoder, and after it the
encoder, the assembler and the disassembler (R60). -/

namespace Sys2Proof

/-! ## The fields of a command word (R55) -/

/-- Bits 47:44, the operation code. -/
def opField (w : CmdWord) : BitVec 4 := w.extractLsb' 44 4

/-- Bit 43, `bc`. -/
def bcField (w : CmdWord) : Bool := w.getLsbD 43

/-- Bits 42:40, reserved, must be zero. -/
def zField (w : CmdWord) : BitVec 3 := w.extractLsb' 40 3

/-- Bits 39:32, `fc` (for SET.SLAVE the new identifier). -/
def fcField (w : CmdWord) : Byte := w.extractLsb' 32 8

/-- Bits 31:16, `ra`. -/
def raField (w : CmdWord) : Word := w.extractLsb' 16 16

/-- Bits 15:0, `rc`. -/
def rcField (w : CmdWord) : Word := w.extractLsb' 0 16

/-! ## The decoder -/

/-- Why a command word is illegal (R57). Either way the command ends with `STATUS = ILLEGAL_CMD`. -/
inductive DecodeError where
  /-- The `z` field is not `0b000`. -/
  | nonzeroZ
  /-- `op` is 0x0 or 0xB to 0xF. -/
  | reservedOp
deriving DecidableEq, Repr

/-- The decoder: one format, decided by `op` and `z` alone (R56, R57, R59). -/
def decode (w : CmdWord) : Except DecodeError Instr :=
  if zField w ≠ 0 then .error .nonzeroZ
  else match (opField w).toNat with
    | 0x1 => .ok .lenRdReq
    | 0x2 => .ok (.lenRdRsp (rcField w))
    | 0x3 => .ok (.lenWrReq (rcField w))
    | 0x4 => .ok .lenWrRsp
    | 0x5 => .ok (.bldRdReq (bcField w) (fcField w) (raField w) (rcField w))
    | 0x6 => .ok (.bldWrReq (bcField w) (fcField w) (raField w) (rcField w))
    | 0x7 => .ok (.valWrRsp (bcField w) (fcField w) (raField w) (rcField w))
    | 0x8 => .ok (.valRdRsp (bcField w) (fcField w) (rcField w))
    | 0x9 => .ok (.extract (rcField w))
    | 0xA => .ok (.setSlave (fcField w))
    | _ => .error .reservedOp

/-- The instruction the decoder reads from a word whose bits are numbered as `spec/opcode_table.json` numbers them: the
command is one 48-bit word with bit 0 the least significant, and bits above `nbits` are zero. -/
def decodeTableWord (nbits w : Nat) : Option Instr :=
  match decode (BitVec.ofNat 48 (w % 2 ^ nbits)) with
  | .ok i => some i
  | .error _ => none

/-! ## The encoder -/

/-- The command word as a number: `op * 2^44 + bc * 2^43 + z * 2^40 + fc * 2^32 + ra * 2^16 + rc` with `z` zero (R55). -/
def commandWord (op : Nat) (bc : Bool) (fc : Byte) (ra rc : Word) : CmdWord :=
  BitVec.ofNat 48
    (op * 2 ^ 44 + bc.toNat * 2 ^ 43 + fc.toNat * 2 ^ 32 + ra.toNat * 2 ^ 16 + rc.toNat)

/-- The encoder: the operation code of R56 and the used operands; an unused operand is assembled as zero (R60). -/
def encode : Instr → CmdWord
  | .lenRdReq => commandWord 0x1 false 0 0 0
  | .lenRdRsp rc => commandWord 0x2 false 0 0 rc
  | .lenWrReq rc => commandWord 0x3 false 0 0 rc
  | .lenWrRsp => commandWord 0x4 false 0 0 0
  | .bldRdReq bc fc ra rc => commandWord 0x5 bc fc ra rc
  | .bldWrReq bc fc ra rc => commandWord 0x6 bc fc ra rc
  | .valWrRsp bc fc ra rc => commandWord 0x7 bc fc ra rc
  | .valRdRsp bc fc rc => commandWord 0x8 bc fc 0 rc
  | .extract rc => commandWord 0x9 false 0 0 rc
  | .setSlave id => commandWord 0xA false id 0 0

/-! ## The opcode map as data (R56) -/

/-- The `op` and `z` fields: the mask of every row of the opcode map. -/
def opcodeMask : CmdWord := 0xF70000000000

/-- The match value of a mnemonic's row. -/
def Mnemonic.matchWord : Mnemonic → CmdWord
  | .lenRdReq => 0x100000000000
  | .lenRdRsp => 0x200000000000
  | .lenWrReq => 0x300000000000
  | .lenWrRsp => 0x400000000000
  | .bldRdReq => 0x500000000000
  | .bldWrReq => 0x600000000000
  | .valWrRsp => 0x700000000000
  | .valRdRsp => 0x800000000000
  | .extract => 0x900000000000
  | .setSlave => 0xA00000000000

/-- The mnemonic of an instruction. -/
def Instr.mnemonic : Instr → Mnemonic
  | .lenRdReq => .lenRdReq
  | .lenRdRsp _ => .lenRdRsp
  | .lenWrReq _ => .lenWrReq
  | .lenWrRsp => .lenWrRsp
  | .bldRdReq _ _ _ _ => .bldRdReq
  | .bldWrReq _ _ _ _ => .bldWrReq
  | .valWrRsp _ _ _ _ => .valWrRsp
  | .valRdRsp _ _ _ => .valRdRsp
  | .extract _ => .extract
  | .setSlave _ => .setSlave

/-- The bits of the command word an operand name stands for (R55). -/
def OperandName.fieldMask : OperandName → CmdWord
  | .bc => 0x080000000000
  | .fc => 0x00FF00000000
  | .ra => 0x0000FFFF0000
  | .rc => 0x00000000FFFF
  | .id => 0x00FF00000000

/-- The bits of a command word that a command looks at: `op`, `z` and the operand fields R56 lists for it. Every other
bit is ignored (R58). -/
def Mnemonic.usedMask (m : Mnemonic) : CmdWord :=
  m.operands.foldl (fun acc o => acc ||| o.fieldMask) opcodeMask

/-! ## Assembler lines (R60) -/

/-- The value an assembler line gives an operand; an operand it does not write is zero (R60). -/
def AsmLine.value (l : AsmLine) (o : OperandName) : Nat :=
  match l.operands.find? (fun x => x.1 = o) with
  | some x => x.2
  | none => 0

/-- The instruction a line names: the mnemonic with the values of its used operands. -/
def AsmLine.instr (l : AsmLine) : Instr :=
  let bc := l.value .bc == 1
  let fc := BitVec.ofNat 8 (l.value .fc)
  let ra := BitVec.ofNat 16 (l.value .ra)
  let rc := BitVec.ofNat 16 (l.value .rc)
  match l.mnemonic with
  | .lenRdReq => .lenRdReq
  | .lenRdRsp => .lenRdRsp rc
  | .lenWrReq => .lenWrReq rc
  | .lenWrRsp => .lenWrRsp
  | .bldRdReq => .bldRdReq bc fc ra rc
  | .bldWrReq => .bldWrReq bc fc ra rc
  | .valWrRsp => .valWrRsp bc fc ra rc
  | .valRdRsp => .valRdRsp bc fc rc
  | .extract => .extract rc
  | .setSlave => .setSlave (BitVec.ofNat 8 (l.value .id))

/-- The assembler: exactly one command word for a well-formed line, none for another (R60). -/
def assemble (l : AsmLine) : Option CmdWord :=
  if l.wf then some (encode l.instr) else none

/-- The assembler line of an instruction: its mnemonic and its used operands in order (R60). -/
def disassemble : Instr → AsmLine
  | .lenRdReq => ⟨.lenRdReq, []⟩
  | .lenRdRsp rc => ⟨.lenRdRsp, [(.rc, rc.toNat)]⟩
  | .lenWrReq rc => ⟨.lenWrReq, [(.rc, rc.toNat)]⟩
  | .lenWrRsp => ⟨.lenWrRsp, []⟩
  | .bldRdReq bc fc ra rc => ⟨.bldRdReq, [(.bc, bc.toNat), (.fc, fc.toNat), (.ra, ra.toNat), (.rc, rc.toNat)]⟩
  | .bldWrReq bc fc ra rc => ⟨.bldWrReq, [(.bc, bc.toNat), (.fc, fc.toNat), (.ra, ra.toNat), (.rc, rc.toNat)]⟩
  | .valWrRsp bc fc ra rc => ⟨.valWrRsp, [(.bc, bc.toNat), (.fc, fc.toNat), (.ra, ra.toNat), (.rc, rc.toNat)]⟩
  | .valRdRsp bc fc rc => ⟨.valRdRsp, [(.bc, bc.toNat), (.fc, fc.toNat), (.rc, rc.toNat)]⟩
  | .extract rc => ⟨.extract, [(.rc, rc.toNat)]⟩
  | .setSlave id => ⟨.setSlave, [(.id, id.toNat)]⟩

/-- `HOST.LOADFB b0 b1 ...`: writes of the bytes to `FB[off]`, `FB[off+1]`, …; the spec's abbreviation starts at
`off = 0` (R60). -/
def HostAction.loadFb : Nat → List Byte → List HostAction
  | _, [] => []
  | off, b :: bs => .wrFb off b :: HostAction.loadFb (off + 1) bs

end Sys2Proof
end

