-- ==== Sys2Proof/Machine/Crc.lean ====
section
/-! DEFINITION. Sys2Proof/Machine/Crc.lean: `CRC16` (R71), the reference instantiation the spec fixes (D13; log 10). -/

namespace Sys2Proof.Machine

/-- One bit of the loop of R71: a logical right shift, with `0xA001` XORed in when bit 0 was 1. -/
def crcBit (c : Word) : Word := if c.getLsbD 0 then (c >>> 1) ^^^ 0xA001 else c >>> 1

/-- `k` rounds of `crcBit`. -/
def crcRounds : Nat → Word → Word
  | 0, c => c
  | k + 1, c => crcRounds k (crcBit c)

/-- One byte of the loop of R71: the byte into the low 8 bits, then eight rounds. -/
def crcByte (c : Word) (b : Byte) : Word := crcRounds 8 (c ^^^ b.setWidth 16)

/-- The loop of R71 over the bytes in offset order, from a given value. -/
def crcBytes : Word → List Byte → Word
  | c, [] => c
  | c, b :: bs => crcBytes (crcByte c b) bs

/-- `CRC16(b)`: initial value `0xFFFF`, no final XOR, no final reflection (R71). -/
def crc16 (bytes : List Byte) : Word := crcBytes 0xFFFF bytes

end Sys2Proof.Machine
end

