-- ==== Sys2Proof/Machine/Memory.lean ====
section
/-! DEFINITION. Sys2Proof/Machine/Memory.lean: the storage behind `FB` and `VAL`: the locations written since reset, as a
list of (index, value) pairs in one canonical form. -/

namespace Sys2Proof.Machine

/-- The locations of one data space that something has written since reset, with what they hold. For `FB` the pairs are
of the type `Host.Cell`; for `VAL` the values are 16-bit entries. An unlisted location is one nothing has written
(R20, R131), so no listed pair can equal what an unlisted one holds (log 7). -/
abbrev Memory (α : Type) := List (Nat × α)

/-- The canonical form: indices strictly rising, each below the capacity. -/
abbrev Memory.wf {α : Type} (cap : Nat) (m : Memory α) : Prop :=
  m.Pairwise (fun x y => x.1 < y.1) ∧ ∀ c ∈ m, c.1 < cap

/-- What was last written to a location since reset, `none` if nothing was. -/
def Memory.read {α : Type} : Memory α → Nat → Option α
  | [], _ => none
  | (b, v) :: rest, a => if a = b then some v else Memory.read rest a

/-- Write one location, keeping the indices rising. -/
def Memory.store {α : Type} : Memory α → Nat → α → Memory α
  | [], a, v => [(a, v)]
  | (b, w) :: rest, a, v =>
    if a < b then (a, v) :: (b, w) :: rest
    else if a = b then (a, v) :: rest
    else (b, w) :: Memory.store rest a v

end Sys2Proof.Machine
end

