-- ==== Sys2Proof/Machine/State.lean ====
section
/-! DEFINITION. Sys2Proof/Machine/State.lean: the state of MBCODEC (R10), its ports, its parameters, and its value right
after reset (R20). -/

namespace Sys2Proof.Machine

/-- The fault causes of a command (R112). A fault is reported on the result port and changes no state; the block goes on
(R116), so each of these ends a command in a NEXT state of the machine (log 3). -/
inductive CmdFault where
  /-- `STATUS` 1: reserved `op` or nonzero `z` (R57). -/
  | illegalCmd
  /-- `STATUS` 2: the command would access `FB` at an offset `≥ FB_CAP` (R113). -/
  | frameOverrun
  /-- `STATUS` 3: the command would access `VAL` at an index `≥ VAL_CAP` (R114). -/
  | valueOverrun
deriving DecidableEq, Repr

/-- What a command returns on the result port (R16, R112). A field the command does not define is absent (U9): `LEN` is
there for LEN commands only, `OK` for VAL commands only, neither on a fault. -/
inductive Result where
  /-- `STATUS = DONE`, no `LEN`, no `OK`: BLD, EXTRACT, SET.SLAVE. -/
  | done
  /-- `STATUS = DONE` with `LEN`: the four LEN commands. -/
  | len (v : Len)
  /-- `STATUS = DONE` with `OK`: the two VAL commands. -/
  | ok (b : Bool)
  /-- A nonzero `STATUS`. -/
  | fault (f : CmdFault)
deriving DecidableEq, Repr

/-- The data a host read returns (R40). -/
inductive HostRead where
  /-- From `HOST.RDFB`. -/
  | fbByte (b : Byte)
  /-- From `HOST.RDVAL`. -/
  | valEntry (v : Word)
deriving DecidableEq, Repr

/-- The state of the machine as plain data. `slaveId`, `broadcastId`, `fb` and `val` are the whole state of the spec
(R10); the other fields are its parameters, its ports and the model's own counter. -/
@[ext]
structure State where
  /-- The parameters of R5; nothing writes them (log 4). -/
  params : Params
  /-- `SLAVE_ID` (R11). -/
  slaveId : Byte
  /-- `BROADCAST_ID` (R12). -/
  broadcastId : Byte
  /-- `FB`: the bytes written since reset, by offset (R17). -/
  fb : List Host.Cell
  /-- `VAL`: the entries written since reset, by index (R18). -/
  val : List (Nat × Word)
  /-- The model's own: the number of the reset, which selects the free values of unwritten locations (log 6). -/
  epoch : Nat
  /-- The host's actions not yet performed, the next one first (R15, R55; log 1). -/
  pending : List HostAction
  /-- The result port after the last action: none if that action was not a command (R16, R20; log 2). -/
  result : Option Result
  /-- What the last action returned to the host, if it was a host read (R40; log 2). -/
  hostRead : Option HostRead
deriving DecidableEq, Repr

/-- Why the machine stops with a fault. Both stop a host action that the spec says is not expressible (R40); no command
raises either, and a well-formed action (`HostAction.wf`) never does (log 8). -/
inductive Fault where
  /-- Raised by `HOST.WRFB` and `HOST.RDFB` at an offset `≥ FB_CAP`, which does not exist. Safe: the machine stops. -/
  | noSuchOffset
  /-- Raised by `HOST.WRVAL` and `HOST.RDVAL` at an index `≥ VAL_CAP`, which does not exist. Safe: the machine stops. -/
  | noSuchIndex
deriving DecidableEq, Repr

/-- Why the machine refuses. -/
inductive Refusal where
  /-- Raised by an arm of `exec` whose instruction has no meaning yet; no arm is left so. Safe: the machine stops. -/
  | notModelled (mnemonic : String)
deriving DecidableEq, Repr

/-! ## Updates of one field -/

def State.withSlaveId (s : State) (id : Byte) : State := { s with slaveId := id }
def State.withFb (s : State) (m : List Host.Cell) : State := { s with fb := m }
def State.withVal (s : State) (m : List (Nat × Word)) : State := { s with val := m }
def State.withPending (s : State) (q : List HostAction) : State := { s with pending := q }
def State.withResult (s : State) (r : Option Result) : State := { s with result := r }
def State.withHostRead (s : State) (d : Option HostRead) : State := { s with hostRead := d }

/-- The state after the reset numbered `k` of a block with parameters `p`: the identity registers loaded, every byte of
`FB` and entry of `VAL` unspecified, no command in progress, nothing on the ports (R20, R130). -/
def State.resetWith (p : Params) (k : Nat) : State :=
  { params := p
    slaveId := p.initSlaveId
    broadcastId := p.initBroadcastId
    fb := []
    val := []
    epoch := k
    pending := []
    result := none
    hostRead := none }

/-- The machine right after reset (R20), with the parameter values of the test vectors (log 4, log 5). -/
def State.reset : State := State.resetWith Config.vectorParams 0

end Sys2Proof.Machine
end

