-- ==== Sys2Proof/Machine/Flags.lean ====
section
/-! DEFINITION. Sys2Proof/Machine/Flags.lean: MBCODEC has no flags (R16). What a command computes beside its writes is the
result port, whose three fields are read off a `Result` here. -/

namespace Sys2Proof.Machine

/-- The `STATUS` code of a fault cause (R112). -/
def CmdFault.code : CmdFault → BitVec 2
  | .illegalCmd => 1
  | .frameOverrun => 2
  | .valueOverrun => 3

/-- `STATUS` (R16, R112). -/
def Result.status : Result → BitVec 2
  | .done => 0
  | .len _ => 0
  | .ok _ => 0
  | .fault f => f.code

/-- `LEN`, where it is meaningful (R16). -/
def Result.lenField : Result → Option Len
  | .done => none
  | .len v => some v
  | .ok _ => none
  | .fault _ => none

/-- `OK`, where it is meaningful (R16). -/
def Result.okField : Result → Option Bool
  | .done => none
  | .len _ => none
  | .ok b => some b
  | .fault _ => none

/-- Whether `STATUS` is nonzero. -/
def Result.isFault : Result → Bool
  | .done => false
  | .len _ => false
  | .ok _ => false
  | .fault _ => true

end Sys2Proof.Machine
end

