-- ==== Sys2Proof/Machine/Operands.lean ====
section
/-! DEFINITION. Sys2Proof/Machine/Operands.lean: how frame fields are assembled from operands and state (R51), the address
selector (R69) and the frame lengths (R80 to R84). -/

namespace Sys2Proof.Machine

/-- `v[15:8]`, which is `v div 256` (R51, R77). -/
def hiByte (v : Word) : Byte := v.extractLsb' 8 8

/-- `v[7:0]`, which is `v mod 256` (R51, R77). -/
def loByte (v : Word) : Byte := v.extractLsb' 0 8

/-- `{hi, lo}`, which is `hi * 256 + lo` (R7, R68). -/
def joinBytes (hi lo : Byte) : Word := hi ++ lo

/-- `trunc_8(v)` (R7). -/
def trunc8 (v : Nat) : Byte := BitVec.ofNat 8 v

/-- `ADDRSEL(bc)`: `BROADCAST_ID` if `bc` is 1, else `SLAVE_ID` (R69). -/
def addrSel (s : State) (bc : Bool) : Byte := if bc then s.broadcastId else s.slaveId

/-! ## The frame lengths, one definition for every command that needs one (R84) -/

/-- Read request length (R80). -/
def readRequestLength : Nat := 8

/-- Read response length for `n` registers (R81). -/
def readResponseLength (n : Nat) : Nat := 5 + 2 * n

/-- Write request length for `n` registers (R82). -/
def writeRequestLength (n : Nat) : Nat := 9 + 2 * n

/-- Write response length (R83). -/
def writeResponseLength : Nat := 8

/-- One more than the highest offset EXTRACT reads for `n` registers (R98). -/
def extractSpan (n : Nat) : Nat := 3 + 2 * n

/-- The offset of value `i` in a write request (R33, R47). -/
def writePayloadOffset (i : Nat) : Nat := 7 + 2 * i

/-- The offset of value `i` in a read response (R33, R48). -/
def readPayloadOffset (i : Nat) : Nat := 3 + 2 * i

/-- Payload byte-count of a write request: `trunc_8(2 * n)`, the only truncation of the block (R51, R77, R88). -/
def payloadByteCount (n : Nat) : Byte := trunc8 (2 * n)

end Sys2Proof.Machine
end

