-- ==== Sys2Proof/Machine/Ops.lean ====
section
/-! DEFINITION. Sys2Proof/Machine/Ops.lean: the marshaller (R65 to R68), access to `VAL`, the CRC collaborator (R72, R73), and
how a command ends: with a result, or by raising a fault (R8, R112, R116). -/

namespace Sys2Proof.Machine

/-! ## Reading -/

/-- `GET8(off)` (R67): the byte last written, or the free value of a byte nothing has written since reset (R131). -/
def get8 (s : State) (off : Nat) : Byte := (Memory.read s.fb off).getD (Config.freeByte s.epoch off)

/-- `GET16BE(off)` (R68). -/
def get16be (s : State) (off : Nat) : Word := joinBytes (get8 s off) (get8 s (off + 1))

/-- `VAL[i]` (R8, R18): the entry last written, or the free value of one nothing has written since reset (R131). -/
def getVal (s : State) (i : Nat) : Word := (Memory.read s.val i).getD (Config.freeEntry s.epoch i)

/-- `FB[0], ..., FB[len-1]` in offset order. -/
def frameBytes (s : State) (len : Nat) : List Byte := (List.range len).map (get8 s)

/-! ## Writing -/

/-- `PUT8(off, v)` (R65). -/
def put8 (off : Nat) (v : Byte) (s : State) : State := s.withFb (Memory.store s.fb off v)

/-- `PUT16BE(off, v)` (R66): the high byte at the lower offset. -/
def put16be (off : Nat) (v : Word) (s : State) : State := put8 (off + 1) (loByte v) (put8 off (hiByte v) s)

/-- `VAL[i] <- v` (R8, R18). -/
def putVal (i : Nat) (v : Word) (s : State) : State := s.withVal (Memory.store s.val i v)

/-- `for i in 0 .. n-1: PUT16BE(7 + 2*i, VAL[i])` (R88); nothing for `n = 0` (R89). -/
def putPayload : Nat → State → State
  | 0, s => s
  | n + 1, s => put16be (writePayloadOffset n) (getVal (putPayload n s) n) (putPayload n s)

/-- `for i in 0 .. n-1: VAL[i] <- GET16BE(3 + 2*i)` (R98); nothing for `n = 0` (R99). -/
def takePayload : Nat → State → State
  | 0, s => s
  | n + 1, s => putVal n (get16be (takePayload n s) (readPayloadOffset n)) (takePayload n s)

/-! ## The CRC collaborator -/

/-- The first trailer byte: the CRC's low byte when `CRC_LOW_FIRST` (R26, R72). -/
def trailerFirst (p : Params) (c : Word) : Byte := if p.crcLowFirst then loByte c else hiByte c

/-- The second trailer byte. -/
def trailerSecond (p : Params) (c : Word) : Byte := if p.crcLowFirst then hiByte c else loByte c

/-- `APPEND_CRC(len)` (R72). -/
def appendCrc (len : Nat) (s : State) : State :=
  put8 (len + 1) (trailerSecond s.params (crc16 (frameBytes s len)))
    (put8 len (trailerFirst s.params (crc16 (frameBytes s len))) s)

/-- `VALIDATE_CRC(total)` (R73), `total ≥ 2`. -/
def validateCrc (s : State) (total : Nat) : Bool :=
  get8 s (total - 2) == trailerFirst s.params (crc16 (frameBytes s (total - 2))) &&
    get8 s (total - 1) == trailerSecond s.params (crc16 (frameBytes s (total - 2)))

/-! ## How a command ends -/

/-- `return STATUS = DONE`. -/
def finish (s : State) : State := s.withResult (some .done)

/-- `return LEN = v`: `v` on an 18-bit field, which no length of the block exceeds (R77). -/
def returnLen (v : Nat) (s : State) : State := s.withResult (some (.len (BitVec.ofNat 18 v)))

/-- `return OK = b`. -/
def returnOk (b : Bool) (s : State) : State := s.withResult (some (.ok b))

/-- Taking a fault, the one operation for all of them: `raise f` ends the command with that `STATUS` and changes no
state (R8, R116). It saves nothing, changes no mode and goes nowhere (R119). There is no return from it: the next
command is accepted and executed normally (R116, R120). -/
def raise (f : CmdFault) (s : State) : State := s.withResult (some (.fault f))

end Sys2Proof.Machine
end

