-- ==== Sys2Proof/Machine/Configure.lean ====
section
/-! DEFINITION. Sys2Proof/Machine/Configure.lean: the configuration command (R101). -/

namespace Sys2Proof.Machine

/-- SET.SLAVE (R101): every 8-bit value is accepted (R102). -/
def execSetSlave (id : Byte) (s : State) : Host.Outcome State Fault Refusal := .next (finish (s.withSlaveId id))

end Sys2Proof.Machine
end

