-- ==== Sys2Proof/Machine/Construct.lean ====
section
/-! DEFINITION. Sys2Proof/Machine/Construct.lean: the request encoder (R86, R88). -/

namespace Sys2Proof.Machine

/-- The 6-byte header of a read request and a write request (R50): address, function code, register address, count. -/
def putHeader (bc : Bool) (fc : Byte) (ra rc : Word) (s : State) : State :=
  put16be 4 rc (put16be 2 ra (put8 1 fc (put8 0 (addrSel s bc) s)))

/-- BLD.RDREQ (R86). No capacity check: `FB_CAP ≥ 8`. -/
def execBldRdReq (bc : Bool) (fc : Byte) (ra rc : Word) (s : State) : Host.Outcome State Fault Refusal :=
  .next (finish (appendCrc (readRequestLength - 2) (putHeader bc fc ra rc s)))

/-- The frame part of BLD.WRREQ: header, byte-count, payload, trailer (R88). -/
def buildWriteRequest (bc : Bool) (fc : Byte) (ra rc : Word) (s : State) : State :=
  appendCrc (writeRequestLength rc.toNat - 2)
    (putPayload rc.toNat (put8 6 (payloadByteCount rc.toNat) (putHeader bc fc ra rc s)))

/-- BLD.WRREQ (R88): both capacity checks come before the first write. -/
def execBldWrReq (bc : Bool) (fc : Byte) (ra rc : Word) (s : State) : Host.Outcome State Fault Refusal :=
  .next
    (if s.params.fbCap < writeRequestLength rc.toNat then raise .frameOverrun s
    else if s.params.valCap < rc.toNat then raise .valueOverrun s
    else finish (buildWriteRequest bc fc ra rc s))

end Sys2Proof.Machine
end

