-- ==== Sys2Proof/Machine/Extract.lean ====
section
/-! DEFINITION. Sys2Proof/Machine/Extract.lean: the response decoder (R98). -/

namespace Sys2Proof.Machine

/-- EXTRACT (R98): both capacity checks come before the first write. -/
def execExtract (rc : Word) (s : State) : Host.Outcome State Fault Refusal :=
  .next
    (if s.params.fbCap < extractSpan rc.toNat then raise .frameOverrun s
    else if s.params.valCap < rc.toNat then raise .valueOverrun s
    else finish (takePayload rc.toNat s))

end Sys2Proof.Machine
end

