-- ==== Sys2Proof/Machine/Length.lean ====
section
/-! DEFINITION. Sys2Proof/Machine/Length.lean: the length commands (R80 to R83). They touch no state. -/

namespace Sys2Proof.Machine

/-- LEN.RDREQ (R80). -/
def execLenRdReq (s : State) : Host.Outcome State Fault Refusal := .next (returnLen readRequestLength s)

/-- LEN.RDRSP (R81). -/
def execLenRdRsp (rc : Word) (s : State) : Host.Outcome State Fault Refusal :=
  .next (returnLen (readResponseLength rc.toNat) s)

/-- LEN.WRREQ (R82). -/
def execLenWrReq (rc : Word) (s : State) : Host.Outcome State Fault Refusal :=
  .next (returnLen (writeRequestLength rc.toNat) s)

/-- LEN.WRRSP (R83). -/
def execLenWrRsp (s : State) : Host.Outcome State Fault Refusal := .next (returnLen writeResponseLength s)

end Sys2Proof.Machine
end

