-- ==== Sys2Proof/Machine/Validate.lean ====
section
/-! DEFINITION. Sys2Proof/Machine/Validate.lean: the response validator (R92, R93, R95). It writes no state. -/

namespace Sys2Proof.Machine

/-- VAL.WRRSP (R93): five checks in order, stopping at the first that fails. -/
def execValWrRsp (bc : Bool) (fc : Byte) (ra rc : Word) (s : State) : Host.Outcome State Fault Refusal :=
  .next
    (if get8 s 0 ≠ addrSel s bc then returnOk false s
    else if get8 s 1 ≠ fc then returnOk false s
    else if get16be s 2 ≠ ra then returnOk false s
    else if get16be s 4 ≠ rc then returnOk false s
    else if validateCrc s writeResponseLength ≠ true then returnOk false s
    else returnOk true s)

/-- VAL.RDRSP (R95): check 3 compares natural numbers (D11; log 12); the capacity check stands before check 4. -/
def execValRdRsp (bc : Bool) (fc : Byte) (rc : Word) (s : State) : Host.Outcome State Fault Refusal :=
  .next
    (if get8 s 0 ≠ addrSel s bc then returnOk false s
    else if get8 s 1 ≠ fc then returnOk false s
    else if (get8 s 2).toNat ≠ 2 * rc.toNat then returnOk false s
    else if s.params.fbCap < readResponseLength rc.toNat then raise .frameOverrun s
    else if validateCrc s (readResponseLength rc.toNat) ≠ true then returnOk false s
    else returnOk true s)

end Sys2Proof.Machine
end

