-- ==== Sys2Proof/Machine/Dispatch.lean ====
section
/-! DEFINITION. Sys2Proof/Machine/Dispatch.lean: one arm per command (R56). -/

namespace Sys2Proof.Machine

def exec (i : Instr) (s : State) : Host.Outcome State Fault Refusal :=
  match i with
  | .lenRdReq => Sys2Proof.Machine.execLenRdReq s
  | .lenRdRsp rc => Sys2Proof.Machine.execLenRdRsp rc s
  | .lenWrReq rc => Sys2Proof.Machine.execLenWrReq rc s
  | .lenWrRsp => Sys2Proof.Machine.execLenWrRsp s
  | .bldRdReq bc fc ra rc => Sys2Proof.Machine.execBldRdReq bc fc ra rc s
  | .bldWrReq bc fc ra rc => Sys2Proof.Machine.execBldWrReq bc fc ra rc s
  | .valWrRsp bc fc ra rc => Sys2Proof.Machine.execValWrRsp bc fc ra rc s
  | .valRdRsp bc fc rc => Sys2Proof.Machine.execValRdRsp bc fc rc s
  | .extract rc => Sys2Proof.Machine.execExtract rc s
  | .setSlave id => Sys2Proof.Machine.execSetSlave id s

end Sys2Proof.Machine
end

