-- ==== Sys2Proof/Machine/HostPort.lean ====
section
/-! DEFINITION. Sys2Proof/Machine/HostPort.lean: the host's actions on the block between commands (R40, R55, R130), and one
step: the next action of the host. -/

namespace Sys2Proof.Machine

/-- A command word on the command port: decoded and performed, or ended with `ILLEGAL_CMD` (R55, R57). -/
def runCommand (w : CmdWord) (s : State) : Host.Outcome State Fault Refusal :=
  match decode w with
  | .ok i => exec i s
  | .error _ => .next (raise .illegalCmd s)

/-- `HOST.WRFB(off, b)` (R40). -/
def hostWrFb (off : Nat) (b : Byte) (s : State) : Host.Outcome State Fault Refusal :=
  if off < s.params.fbCap then .next (put8 off b s) else .fault .noSuchOffset

/-- `HOST.RDFB(off)` (R40). -/
def hostRdFb (off : Nat) (s : State) : Host.Outcome State Fault Refusal :=
  if off < s.params.fbCap then .next (s.withHostRead (some (.fbByte (get8 s off)))) else .fault .noSuchOffset

/-- `HOST.WRVAL(i, v)` (R40). -/
def hostWrVal (i : Nat) (v : Word) (s : State) : Host.Outcome State Fault Refusal :=
  if i < s.params.valCap then .next (putVal i v s) else .fault .noSuchIndex

/-- `HOST.RDVAL(i)` (R40). -/
def hostRdVal (i : Nat) (s : State) : Host.Outcome State Fault Refusal :=
  if i < s.params.valCap then .next (s.withHostRead (some (.valEntry (getVal s i)))) else .fault .noSuchIndex

/-- Reset again: a fresh construction from the same parameters, `FB` and `VAL` unspecified anew; what the host will do
next is the host's and stays (R130; log 9). -/
def hostReset (s : State) : State := (State.resetWith s.params (s.epoch + 1)).withPending s.pending

/-- One action of the host. -/
def perform (a : HostAction) (s : State) : Host.Outcome State Fault Refusal :=
  match a with
  | .command w => runCommand w s
  | .wrFb off b => hostWrFb off b s
  | .rdFb off => hostRdFb off s
  | .wrVal i v => hostWrVal i v s
  | .rdVal i => hostRdVal i s
  | .reset => .next (hostReset s)

/-- The block takes an action: `rest` is left to do, and the ports hold nothing of an earlier action (R16, R19). -/
def accept (rest : List HostAction) (s : State) : State :=
  ((s.withPending rest).withResult none).withHostRead none

/-- The next action of the host, or nothing: with no action pending the block is idle and holds its state (R126). -/
def performNext (s : State) : Host.Outcome State Fault Refusal :=
  match s.pending with
  | [] => .next s
  | a :: rest => perform a (accept rest s)

/-- The 48-bit command word presented as the host's next action, before whatever it had pending (R55). -/
def presentWord (s : State) (nbits w : Nat) : State :=
  s.withPending (.command (BitVec.ofNat 48 (w % 2 ^ nbits)) :: s.pending)

end Sys2Proof.Machine
end

