-- ==== Sys2Proof/Machine/Step.lean ====
section
/-! DEFINITION. Sys2Proof/Machine/Step.lean: one step is one action of the host, atomic as the host sees it (R30, R37). -/

namespace Sys2Proof.Machine

/-- One step of the machine. -/
def step : State → Host.Outcome State Fault Refusal := performNext

/-- The state with the command word `w` of `nbits` bits on the command port, so that the next step runs it. The block
fetches nothing (R15, R42): this stands for the host's presenting the command (log 1). -/
def State.withFetchWord (s : State) (nbits w : Nat) : State := presentWord s nbits w

end Sys2Proof.Machine
end

