-- ==== Sys2Proof/Machine/Frames.lean ====
section
/-! DEFINITION. Sys2Proof/Machine/Frames.lean: the four wire frames as byte lists (R45 to R49). No command calls these: they
are the vocabulary in which statements say what a command's byte writes and checks amount to. -/

namespace Sys2Proof.Machine

/-- The bytes followed by the two trailer bytes of their CRC (R45, R51). -/
def withTrailer (p : Params) (bytes : List Byte) : List Byte :=
  bytes ++ [trailerFirst p (crc16 bytes), trailerSecond p (crc16 bytes)]

/-- The 6-byte header of three of the four frames (R50). -/
def headerBytes (addr fc : Byte) (ra rc : Word) : List Byte :=
  [addr, fc, hiByte ra, loByte ra, hiByte rc, loByte rc]

/-- Register values in order, each high byte first (R25, R51). -/
def payloadBytes : List Word → List Byte
  | [] => []
  | v :: vs => hiByte v :: loByte v :: payloadBytes vs

/-- The read request (R46). -/
def readRequestFrame (p : Params) (addr fc : Byte) (ra rc : Word) : List Byte :=
  withTrailer p (headerBytes addr fc ra rc)

/-- The write request (R47): `vals` are the `n` values. -/
def writeRequestFrame (p : Params) (addr fc : Byte) (ra rc : Word) (vals : List Word) : List Byte :=
  withTrailer p (headerBytes addr fc ra rc ++ payloadByteCount rc.toNat :: payloadBytes vals)

/-- The read response (R48): the byte-count byte is twice the number of values, for at most 127 values. -/
def readResponseFrame (p : Params) (addr fc : Byte) (vals : List Word) : List Byte :=
  withTrailer p (addr :: fc :: trunc8 (2 * vals.length) :: payloadBytes vals)

/-- The write response (R49): it mirrors the request header. -/
def writeResponseFrame (p : Params) (addr fc : Byte) (ra rc : Word) : List Byte :=
  withTrailer p (headerBytes addr fc ra rc)

/-- `VAL[0], ..., VAL[n-1]` in index order. -/
def valEntries (s : State) (n : Nat) : List Word := (List.range n).map (getVal s)

end Sys2Proof.Machine
end

