-- ==== Sys2Proof/Safety.lean ====
section
/-! DEFINITION. Sys2Proof/Safety.lean: the invariant of the machine, what a run that has not gone wrong is (R116), and the
footprint of a command (R21, R131), in the terms the statements use. -/

namespace Sys2Proof.Machine

/-- What every step keeps: the parameter constraint (R5), the immutable `BROADCAST_ID` (R12), and both memories in
canonical form below their capacities (R17, R18, R35). -/
structure State.Inv (s : State) : Prop where
  /-- `FB_CAP ≥ 8`. -/
  fbCapOk : s.params.wf
  /-- `BROADCAST_ID` holds the value reset loaded. -/
  broadcastFixed : s.broadcastId = s.params.initBroadcastId
  /-- `FB` is canonical. -/
  fbWf : Memory.wf s.params.fbCap s.fb
  /-- `VAL` is canonical. -/
  valWf : Memory.wf s.params.valCap s.val

/-- The host's pending actions name locations that exist (R40). -/
abbrev State.hostInBounds (s : State) : Prop := ∀ a ∈ s.pending, a.wf s.params = true

/-- The last command ended in a fault: the run has gone wrong, though the block itself goes on (R116). -/
def State.goneWrong (s : State) : Bool :=
  match s.result with
  | none => false
  | some r => r.isFault

/-- A run of `k` steps in which the machine never stops and no command faults (R116, U1, U2). -/
def SafeRun : Nat → State → Prop
  | 0, s => s.goneWrong = false
  | k + 1, s => s.goneWrong = false ∧ ∃ t, step s = .next t ∧ SafeRun k t

/-! ## The footprint of a command (R21) -/

/-- The offsets of `FB` a command may read, beside bytes it has itself written (R21, R22). -/
def readsFb : Instr → Nat → Prop
  | .lenRdReq, _ => False
  | .lenRdRsp _, _ => False
  | .lenWrReq _, _ => False
  | .lenWrRsp, _ => False
  | .bldRdReq _ _ _ _, _ => False
  | .bldWrReq _ _ _ _, _ => False
  | .valWrRsp _ _ _ _, j => j < writeResponseLength
  | .valRdRsp _ _ rc, j => j < readResponseLength rc.toNat
  | .extract rc, j => 3 ≤ j ∧ j < extractSpan rc.toNat
  | .setSlave _, _ => False

/-- The offsets of `FB` a command writes when it does not fault (R21, R34). -/
def writesFb : Instr → Nat → Prop
  | .lenRdReq, _ => False
  | .lenRdRsp _, _ => False
  | .lenWrReq _, _ => False
  | .lenWrRsp, _ => False
  | .bldRdReq _ _ _ _, j => j < readRequestLength
  | .bldWrReq _ _ _ rc, j => j < writeRequestLength rc.toNat
  | .valWrRsp _ _ _ _, _ => False
  | .valRdRsp _ _ _, _ => False
  | .extract _, _ => False
  | .setSlave _, _ => False

/-- The indices of `VAL` a command reads (R18, R21). -/
def readsVal : Instr → Nat → Prop
  | .lenRdReq, _ => False
  | .lenRdRsp _, _ => False
  | .lenWrReq _, _ => False
  | .lenWrRsp, _ => False
  | .bldRdReq _ _ _ _, _ => False
  | .bldWrReq _ _ _ rc, i => i < rc.toNat
  | .valWrRsp _ _ _ _, _ => False
  | .valRdRsp _ _ _, _ => False
  | .extract _, _ => False
  | .setSlave _, _ => False

/-- The indices of `VAL` a command writes when it does not fault (R18, R21). -/
def writesVal : Instr → Nat → Prop
  | .lenRdReq, _ => False
  | .lenRdRsp _, _ => False
  | .lenWrReq _, _ => False
  | .lenWrRsp, _ => False
  | .bldRdReq _ _ _ _, _ => False
  | .bldWrReq _ _ _ _, _ => False
  | .valWrRsp _ _ _ _, _ => False
  | .valRdRsp _ _ _, _ => False
  | .extract rc, i => i < rc.toNat
  | .setSlave _, _ => False

/-- The `bc` operand of the four commands that read an identity register through `ADDRSEL` (R11, R12, R21). -/
def addressOperand : Instr → Option Bool
  | .lenRdReq => none
  | .lenRdRsp _ => none
  | .lenWrReq _ => none
  | .lenWrRsp => none
  | .bldRdReq bc _ _ _ => some bc
  | .bldWrReq bc _ _ _ => some bc
  | .valWrRsp bc _ _ _ => some bc
  | .valRdRsp bc _ _ => some bc
  | .extract _ => none
  | .setSlave _ => none

/-- The exact condition of `FRAME_OVERRUN` for each command (R113). -/
def overrunsFrame : Instr → State → Prop
  | .lenRdReq, _ => False
  | .lenRdRsp _, _ => False
  | .lenWrReq _, _ => False
  | .lenWrRsp, _ => False
  | .bldRdReq _ _ _ _, _ => False
  | .bldWrReq _ _ _ rc, s => 9 + 2 * rc.toNat > s.params.fbCap
  | .valWrRsp _ _ _ _, _ => False
  | .valRdRsp bc fc rc, s =>
    get8 s 0 = addrSel s bc ∧ get8 s 1 = fc ∧ (get8 s 2).toNat = 2 * rc.toNat ∧
      5 + 2 * rc.toNat > s.params.fbCap
  | .extract rc, s => 3 + 2 * rc.toNat > s.params.fbCap
  | .setSlave _, _ => False

/-- The exact condition of `VALUE_OVERRUN` for each command, before priority (R114). -/
def overrunsValues : Instr → State → Prop
  | .lenRdReq, _ => False
  | .lenRdRsp _, _ => False
  | .lenWrReq _, _ => False
  | .lenWrRsp, _ => False
  | .bldRdReq _ _ _ _, _ => False
  | .bldWrReq _ _ _ rc, s => rc.toNat > s.params.valCap
  | .valWrRsp _ _ _ _, _ => False
  | .valRdRsp _ _ _, _ => False
  | .extract rc, s => rc.toNat > s.params.valCap
  | .setSlave _, _ => False

/-! ## Written-ness (R131) -/

/-- Every location a command reads has been written since reset, so its result rests on no free value (R131). -/
def footprintWritten (i : Instr) (s : State) : Prop :=
  (∀ j, readsFb i j → (Memory.read s.fb j).isSome) ∧ (∀ j, readsVal i j → (Memory.read s.val j).isSome)

end Sys2Proof.Machine
end

