-- ==== Sys2Proof/Certificates/Slice0/Obligations.lean ====
section
/-! DEFINITION. Sys2Proof/Certificates/Slice0/Obligations.lean: the statements for the provers. Each docstring names the rule
of spec/ it formalises, or the sections it rests on and the choice of the model it depends on. -/

open Sys2Proof Sys2Proof.Machine

/-! ## The step and the command word -/

/-- A step with a command at the head of the pending actions runs the decoded instruction; the step adds only that the
action is taken and the ports hold nothing of an earlier action (log 1, log 2). A word that does not decode ends with
`ILLEGAL_CMD`. `withFetchWord` presents exactly the instruction `decodeTableWord` reads. -/
def Obligations.CommandStepRunsDecodedInstruction : Prop :=
  (∀ (s : State) (w : CmdWord) (rest : List HostAction), s.pending = .command w :: rest →
    (∀ i, decode w = .ok i → step s = exec i { s with pending := rest, result := none, hostRead := none }) ∧
    (∀ e, decode w = .error e →
      step s = .next { s with pending := rest, result := some (.fault .illegalCmd), hostRead := none })) ∧
  (∀ (s : State) (nbits w : Nat) (i : Instr), decodeTableWord nbits w = some i →
    step (s.withFetchWord nbits w) = exec i { s with result := none, hostRead := none })

/-- R62: the worked encodings, each assembled from its line and decoded back, and the three illegal words. -/
def Obligations.WorkedCommandWordsOfTheSpec : Prop :=
  (assemble ⟨.bldRdReq, [(.bc, 0), (.fc, 0x03), (.ra, 0x0010), (.rc, 2)]⟩ = some 0x500300100002 ∧
    decode 0x500300100002 = .ok (.bldRdReq false 0x03 0x0010 2)) ∧
  (assemble ⟨.bldRdReq, [(.bc, 1), (.fc, 0x03), (.ra, 0x0010), (.rc, 2)]⟩ = some 0x580300100002 ∧
    decode 0x580300100002 = .ok (.bldRdReq true 0x03 0x0010 2)) ∧
  (assemble ⟨.lenRdRsp, [(.rc, 2)]⟩ = some 0x200000000002 ∧ decode 0x200000000002 = .ok (.lenRdRsp 2)) ∧
  (assemble ⟨.bldWrReq, [(.bc, 0), (.fc, 0x10), (.ra, 0x0001), (.rc, 2)]⟩ = some 0x601000010002 ∧
    decode 0x601000010002 = .ok (.bldWrReq false 0x10 0x0001 2)) ∧
  (assemble ⟨.valWrRsp, [(.bc, 0), (.fc, 0x10), (.ra, 0x0001), (.rc, 2)]⟩ = some 0x701000010002 ∧
    decode 0x701000010002 = .ok (.valWrRsp false 0x10 0x0001 2)) ∧
  (assemble ⟨.valRdRsp, [(.bc, 0), (.fc, 0x03), (.rc, 2)]⟩ = some 0x800300000002 ∧
    decode 0x800300000002 = .ok (.valRdRsp false 0x03 2)) ∧
  (assemble ⟨.extract, [(.rc, 2)]⟩ = some 0x900000000002 ∧ decode 0x900000000002 = .ok (.extract 2)) ∧
  (assemble ⟨.setSlave, [(.id, 0x11)]⟩ = some 0xA01100000000 ∧ decode 0xA01100000000 = .ok (.setSlave 0x11)) ∧
  (decode 0x000000000000 = .error .reservedOp ∧ opField 0x000000000000 = 0) ∧
  (decode 0xB00000000000 = .error .reservedOp ∧ opField 0xB00000000000 = 0xB) ∧
  (decode 0x510000000000 = .error .nonzeroZ ∧ zField 0x510000000000 = 0b001)

/-- Decoding an encoded instruction gives it back, for every instruction with every operand at every value
(`30_encoding.md` section 3). -/
def Obligations.DecodeOfEncodeIsIdentity : Prop := ∀ i : Instr, decode (encode i) = .ok i

/-- R56: a word decodes to an instruction of a mnemonic exactly when the word under the mask is that row's match value,
and the operand fields the row lists are then the instruction's operands: the word with every other bit cleared is the
instruction's encoding. The field values are those of R55. -/
def Obligations.OpcodeMapIdentifiesTheCommand : Prop :=
  (∀ (w : CmdWord) (m : Mnemonic),
    (∃ i, decode w = .ok i ∧ i.mnemonic = m) ↔ w &&& 0xF70000000000 = m.matchWord) ∧
  (∀ (w : CmdWord) (i : Instr), decode w = .ok i → encode i = w &&& i.mnemonic.usedMask)

/-- R58: two words that agree on `op`, `z` and the operand fields R56 lists for the command run alike on every state;
only `z` is checked. -/
def Obligations.UnusedOperandFieldsAreIgnored : Prop :=
  ∀ (w w' : CmdWord) (i : Instr), decode w = .ok i → w &&& i.mnemonic.usedMask = w' &&& i.mnemonic.usedMask →
    decode w' = .ok i ∧ ∀ s, runCommand w' s = runCommand w s

/-- R57: a word with a reserved `op` or a nonzero `z` ends with `ILLEGAL_CMD` and changes no state; every other word is
a command. -/
def Obligations.ReservedWordsEndWithIllegalCmd : Prop :=
  ∀ (w : CmdWord) (s : State),
    ((opField w = 0x0 ∨ 0xB ≤ (opField w).toNat ∨ zField w ≠ 0b000) →
      runCommand w s = .next { s with result := some (.fault .illegalCmd) }) ∧
    (¬ (opField w = 0x0 ∨ 0xB ≤ (opField w).toNat ∨ zField w ≠ 0b000) →
      ∃ i, decode w = .ok i ∧ runCommand w s = exec i s)

/-- The assembler lines of R60: a well-formed line is exactly one command word, which decodes to the instruction the line
names; another line is an error. That a value too wide for its field is an error is the model's reading (log 15). -/
def Obligations.AssemblerLinesAreCommandWords : Prop :=
  (∀ l : AsmLine, l.wf → ∃ w i, assemble l = some w ∧ decode w = .ok i ∧ disassemble i = l) ∧
  (∀ l : AsmLine, ¬ l.wf → assemble l = none) ∧
  (∀ i : Instr, (disassemble i).wf ∧ assemble (disassemble i) = some (encode i))

/-! ## Primitives -/

/-- R66 and R68: `PUT16BE` puts `v div 256` at `off` and `v mod 256` at `off+1`, for every offset, and writes no other
byte and no other state; `GET16BE` is `FB[off] * 256 + FB[off+1]` and its exact inverse. -/
def Obligations.BigEndianInsertionAndExtraction : Prop :=
  (∀ (off : Nat) (v : Word) (s : State),
    (get8 (put16be off v s) off).toNat = v.toNat / 256 ∧
    (get8 (put16be off v s) (off + 1)).toNat = v.toNat % 256 ∧
    (∀ j, j ≠ off → j ≠ off + 1 → get8 (put16be off v s) j = get8 s j) ∧
    put16be off v s = { s with fb := (put16be off v s).fb } ∧
    get16be (put16be off v s) off = v) ∧
  (∀ (off : Nat) (s : State), (get16be s off).toNat = (get8 s off).toNat * 256 + (get8 s (off + 1)).toNat)

/-- R13: SET.SLAVE may set `SLAVE_ID` to the value of `BROADCAST_ID`, and where the two are equal `bc` has no effect on
any command's result. -/
def Obligations.EqualIdentitiesMakeBroadcastIrrelevant : Prop :=
  ∀ s : State,
    exec (.setSlave s.broadcastId) s = .next { s with slaveId := s.broadcastId, result := some .done } ∧
    (s.slaveId = s.broadcastId → ∀ (fc : Byte) (ra rc : Word),
      exec (.bldRdReq true fc ra rc) s = exec (.bldRdReq false fc ra rc) s ∧
      exec (.bldWrReq true fc ra rc) s = exec (.bldWrReq false fc ra rc) s ∧
      exec (.valWrRsp true fc ra rc) s = exec (.valWrRsp false fc ra rc) s ∧
      exec (.valRdRsp true fc rc) s = exec (.valRdRsp false fc rc) s)

/-- R69: `ADDRSEL(bc)` is `BROADCAST_ID` if `bc` is 1, else `SLAVE_ID`; it is the only place the identity registers are
read: a command that does not select `SLAVE_ID` runs the same whatever `SLAVE_ID` holds, and one that does not select
`BROADCAST_ID` runs the same whatever that holds (`Sys2Proof.Machine.addressOperand` is the `bc` of the four commands that
use `ADDRSEL`). It is used alike for building (byte 0 of both requests) and for validating (check 1 of both responses). -/
def Obligations.IdentitiesAreReadThroughAddrselOnly : Prop :=
  (∀ s : State, addrSel s true = s.broadcastId ∧ addrSel s false = s.slaveId) ∧
  (∀ (bc : Bool) (fc : Byte) (ra rc : Word) (s : State),
    (∀ t, exec (.bldRdReq bc fc ra rc) s = .next t → get8 t 0 = addrSel s bc) ∧
    (∀ t, exec (.bldWrReq bc fc ra rc) s = .next t → t.result = some .done → get8 t 0 = addrSel s bc) ∧
    (get8 s 0 ≠ addrSel s bc →
      exec (.valWrRsp bc fc ra rc) s = .next { s with result := some (.ok false) } ∧
      exec (.valRdRsp bc fc rc) s = .next { s with result := some (.ok false) })) ∧
  (∀ (i : Instr) (s t : State) (x : Byte), addressOperand i ≠ some false → (∀ id, i ≠ .setSlave id) →
    exec i s = .next t → exec i { s with slaveId := x } = .next { t with slaveId := x }) ∧
  (∀ (i : Instr) (s t : State) (x : Byte), addressOperand i ≠ some true → exec i s = .next t →
    exec i { s with broadcastId := x } = .next { t with broadcastId := x })

/-- R71: `CRC16` starts from `0xFFFF`, takes the bytes in offset order, XORs each into the low 8 bits and does eight
rounds, each a logical right shift with `0xA001` XORed in when bit 0 was 1, with no final step; and the check values. -/
def Obligations.CrcLoopAndCheckValues : Prop :=
  (crc16 [] = 0xFFFF) ∧
  (∀ (bytes : List Byte) (b : Byte),
    crc16 (bytes ++ [b]) = Nat.iterate crcBit 8 (crc16 bytes ^^^ BitVec.ofNat 16 b.toNat)) ∧
  (∀ c : Word, c.toNat % 2 = 1 → crcBit c = BitVec.ofNat 16 (c.toNat / 2) ^^^ 0xA001) ∧
  (∀ c : Word, c.toNat % 2 = 0 → crcBit c = BitVec.ofNat 16 (c.toNat / 2)) ∧
  crc16 [0x00] = 0x40BF ∧ crc16 [0x01] = 0x807E ∧
  crc16 [0x31, 0x32, 0x33, 0x34, 0x35, 0x36, 0x37, 0x38, 0x39] = 0x4B37 ∧
  crc16 [0x01, 0x03, 0x00, 0x00, 0x00, 0x0A] = 0xCDC5 ∧
  crc16 [0x05, 0x03, 0x00, 0x10, 0x00, 0x02] = 0x4AC4

/-- R72 and R73: `APPEND_CRC(len)` writes exactly the two bytes at `len` and `len+1`, the low byte first when
`CRC_LOW_FIRST` and swapped when not; `VALIDATE_CRC(total)` compares the last two bytes with the same two values. -/
def Obligations.CrcCollaboratorContract : Prop :=
  (∀ (len c : Nat) (s : State), c = (crc16 (frameBytes s len)).toNat →
    (s.params.crcLowFirst = true →
      (get8 (appendCrc len s) len).toNat = c % 256 ∧ (get8 (appendCrc len s) (len + 1)).toNat = c / 256) ∧
    (s.params.crcLowFirst = false →
      (get8 (appendCrc len s) len).toNat = c / 256 ∧ (get8 (appendCrc len s) (len + 1)).toNat = c % 256) ∧
    (∀ j, j ≠ len → j ≠ len + 1 → get8 (appendCrc len s) j = get8 s j) ∧
    appendCrc len s = { s with fb := (appendCrc len s).fb }) ∧
  (∀ (total c : Nat) (s : State), 2 ≤ total → c = (crc16 (frameBytes s (total - 2))).toNat →
    (s.params.crcLowFirst = true →
      (validateCrc s total = true ↔
        (get8 s (total - 2)).toNat = c % 256 ∧ (get8 s (total - 1)).toNat = c / 256)) ∧
    (s.params.crcLowFirst = false →
      (validateCrc s total = true ↔
        (get8 s (total - 2)).toNat = c / 256 ∧ (get8 s (total - 1)).toNat = c % 256)))

/-- R74: append, then validate with no write between, gives 1, for every length, content and trailer order. -/
def Obligations.AppendedCrcValidates : Prop :=
  ∀ (len : Nat) (s : State), validateCrc (appendCrc len s) (len + 2) = true

/-! ## The length commands -/

/-- R80, R81, R82, R83: each length command touches no state, returns its formula on an 18-bit `LEN` without wrap, for
every word of its `op`, and ends with `ILLEGAL_CMD` for a nonzero `z`. -/
def Obligations.LengthCommandsReturnTheirFormulas : Prop :=
  (∀ s : State, exec .lenRdReq s = .next { s with result := some (.len 8) }) ∧
  (∀ (rc : Word) (s : State), ∃ v : Len, v.toNat = 5 + 2 * rc.toNat ∧
    exec (.lenRdRsp rc) s = .next { s with result := some (.len v) }) ∧
  (∀ (rc : Word) (s : State), ∃ v : Len, v.toNat = 9 + 2 * rc.toNat ∧
    exec (.lenWrReq rc) s = .next { s with result := some (.len v) }) ∧
  (∀ s : State, exec .lenWrRsp s = .next { s with result := some (.len 8) }) ∧
  (∀ (w : CmdWord) (s : State), zField w = 0 →
    (opField w = 1 → runCommand w s = exec .lenRdReq s) ∧
    (opField w = 2 → runCommand w s = exec (.lenRdRsp (rcField w)) s) ∧
    (opField w = 3 → runCommand w s = exec (.lenWrReq (rcField w)) s) ∧
    (opField w = 4 → runCommand w s = exec .lenWrRsp s)) ∧
  (∀ (w : CmdWord) (s : State), zField w ≠ 0 → opField w ∈ ([1, 2, 3, 4] : List (BitVec 4)) →
    runCommand w s = .next { s with result := some (.fault .illegalCmd) })

/-- R84: the build commands write exactly the offsets below the length their length command returns, leaving no unwritten
byte inside it, and the CRC over that length validates; where the other checks of a validate command pass and the frame
fits, its `OK` is the CRC check over exactly the length its length command returns. -/
def Obligations.LengthsAgreeWithBuildAndValidate : Prop :=
  (∀ (bc : Bool) (fc : Byte) (ra rc : Word) (s t : State) (v : Len),
    exec .lenRdReq s = .next { s with result := some (.len v) } → exec (.bldRdReq bc fc ra rc) s = .next t →
    validateCrc t v.toNat = true ∧ (∀ j, j < v.toNat → (Memory.read t.fb j).isSome) ∧
      (∀ j, v.toNat ≤ j → Memory.read t.fb j = Memory.read s.fb j)) ∧
  (∀ (bc : Bool) (fc : Byte) (ra rc : Word) (s t : State) (v : Len),
    exec (.lenWrReq rc) s = .next { s with result := some (.len v) } → exec (.bldWrReq bc fc ra rc) s = .next t →
    t.result = some .done →
    validateCrc t v.toNat = true ∧ (∀ j, j < v.toNat → (Memory.read t.fb j).isSome) ∧
      (∀ j, v.toNat ≤ j → Memory.read t.fb j = Memory.read s.fb j)) ∧
  (∀ (bc : Bool) (fc : Byte) (ra rc : Word) (s : State) (v : Len),
    exec .lenWrRsp s = .next { s with result := some (.len v) } →
    get8 s 0 = addrSel s bc → get8 s 1 = fc → get16be s 2 = ra → get16be s 4 = rc →
    exec (.valWrRsp bc fc ra rc) s = .next { s with result := some (.ok (validateCrc s v.toNat)) }) ∧
  (∀ (bc : Bool) (fc : Byte) (rc : Word) (s : State) (v : Len),
    exec (.lenRdRsp rc) s = .next { s with result := some (.len v) } →
    get8 s 0 = addrSel s bc → get8 s 1 = fc → (get8 s 2).toNat = 2 * rc.toNat → v.toNat ≤ s.params.fbCap →
    exec (.valRdRsp bc fc rc) s = .next { s with result := some (.ok (validateCrc s v.toNat)) })

/-! ## The construct commands -/

/-- R86: BLD.RDREQ completes in every state with the read request of R46 in `FB[0..7]`, nothing else of `FB` and no other
state changed, whatever the operands; with a nonzero `z` it ends with `ILLEGAL_CMD`. The trailer is written for both
values of the configuration field `CRC_LOW_FIRST`. -/
def Obligations.BldRdReqWritesTheReadRequest : Prop :=
  (∀ (bc : Bool) (fc : Byte) (ra rc : Word) (s : State), ∃ t,
    exec (.bldRdReq bc fc ra rc) s = .next t ∧
    t = { s with fb := t.fb, result := some .done } ∧
    get8 t 0 = (if bc then s.broadcastId else s.slaveId) ∧ get8 t 1 = fc ∧
    (get8 t 2).toNat = ra.toNat / 256 ∧ (get8 t 3).toNat = ra.toNat % 256 ∧
    (get8 t 4).toNat = rc.toNat / 256 ∧ (get8 t 5).toNat = rc.toNat % 256 ∧
    (∀ c, c = (crc16 [get8 t 0, get8 t 1, get8 t 2, get8 t 3, get8 t 4, get8 t 5]).toNat →
      (get8 t 6).toNat = (if s.params.crcLowFirst then c % 256 else c / 256) ∧
      (get8 t 7).toNat = (if s.params.crcLowFirst then c / 256 else c % 256)) ∧
    ∀ j, 8 ≤ j → get8 t j = get8 s j) ∧
  (∀ (w : CmdWord) (s : State), opField w = 5 →
    (zField w ≠ 0 → runCommand w s = .next { s with result := some (.fault .illegalCmd) }) ∧
    (zField w = 0 → runCommand w s = exec (.bldRdReq (bcField w) (fcField w) (raField w) (rcField w)) s))

/-- R88: BLD.WRREQ, with both fault conditions in their order before any write, and otherwise the write request of R47
in `FB[0 .. 8+2n]`, nothing else of `FB` and no other state changed. -/
def Obligations.BldWrReqWritesTheWriteRequest : Prop :=
  (∀ (bc : Bool) (fc : Byte) (ra rc : Word) (s : State),
    (9 + 2 * rc.toNat > s.params.fbCap →
      exec (.bldWrReq bc fc ra rc) s = .next { s with result := some (.fault .frameOverrun) }) ∧
    (9 + 2 * rc.toNat ≤ s.params.fbCap → rc.toNat > s.params.valCap →
      exec (.bldWrReq bc fc ra rc) s = .next { s with result := some (.fault .valueOverrun) }) ∧
    (9 + 2 * rc.toNat ≤ s.params.fbCap → rc.toNat ≤ s.params.valCap → ∃ t,
      exec (.bldWrReq bc fc ra rc) s = .next t ∧
      t = { s with fb := t.fb, result := some .done } ∧
      get8 t 0 = (if bc then s.broadcastId else s.slaveId) ∧ get8 t 1 = fc ∧
      (get8 t 2).toNat = ra.toNat / 256 ∧ (get8 t 3).toNat = ra.toNat % 256 ∧
      (get8 t 4).toNat = rc.toNat / 256 ∧ (get8 t 5).toNat = rc.toNat % 256 ∧
      (get8 t 6).toNat = (2 * rc.toNat) % 256 ∧
      (∀ i, i < rc.toNat → (get8 t (7 + 2 * i)).toNat = (getVal s i).toNat / 256 ∧
        (get8 t (8 + 2 * i)).toNat = (getVal s i).toNat % 256) ∧
      (∀ c, c = (crc16 (frameBytes t (7 + 2 * rc.toNat))).toNat →
        (get8 t (7 + 2 * rc.toNat)).toNat = (if s.params.crcLowFirst then c % 256 else c / 256) ∧
        (get8 t (8 + 2 * rc.toNat)).toNat = (if s.params.crcLowFirst then c / 256 else c % 256)) ∧
      ∀ j, 9 + 2 * rc.toNat ≤ j → get8 t j = get8 s j)) ∧
  (∀ (w : CmdWord) (s : State), opField w = 6 →
    (zField w ≠ 0 → runCommand w s = .next { s with result := some (.fault .illegalCmd) }) ∧
    (zField w = 0 → runCommand w s = exec (.bldWrReq (bcField w) (fcField w) (raField w) (rcField w)) s))

/-- Refinement: the byte-by-byte construction of both build commands is storing one frame as a list (R90 allows
a model to build the frame so): the frame in `FB` afterwards is the read request of R46, or the write request of R47 with
the entries `VAL[0..n-1]`, and it does not depend on what `FB` held. -/
def Obligations.ConstructionRefinesTheFrameLayout : Prop :=
  (∀ (bc : Bool) (fc : Byte) (ra rc : Word) (s t : State), exec (.bldRdReq bc fc ra rc) s = .next t →
    frameBytes t readRequestLength = readRequestFrame s.params (addrSel s bc) fc ra rc) ∧
  (∀ (bc : Bool) (fc : Byte) (ra rc : Word) (s t : State), exec (.bldWrReq bc fc ra rc) s = .next t →
    t.result = some .done →
    frameBytes t (writeRequestLength rc.toNat) =
      writeRequestFrame s.params (addrSel s bc) fc ra rc (valEntries s rc.toNat))

/-- The byte-count wrap (R77 c, R89, R115): a completed BLD.WRREQ leaves `(2n) mod 256` in byte 6, which differs from `2n`
exactly when `n ≥ 128`; bytes 4-5 hold the full count and the frame's CRC is valid all the same; nothing is signalled. -/
def Obligations.ByteCountWrapsSilently : Prop :=
  ∀ (bc : Bool) (fc : Byte) (ra rc : Word) (s : State),
    9 + 2 * rc.toNat ≤ s.params.fbCap → rc.toNat ≤ s.params.valCap → ∃ t,
      exec (.bldWrReq bc fc ra rc) s = .next t ∧ t.result = some .done ∧
      get16be t 4 = rc ∧ validateCrc t (9 + 2 * rc.toNat) = true ∧
      (get8 t 6).toNat = (2 * rc.toNat) % 256 ∧ ((get8 t 6).toNat ≠ 2 * rc.toNat ↔ 128 ≤ rc.toNat)

/-! ## The validate commands -/

/-- R93: VAL.WRRSP completes in every state, writes nothing but the result port, and `OK` is the conjunction of its five
checks; with a nonzero `z` it ends with `ILLEGAL_CMD`. -/
def Obligations.ValWrRspChecksTheWriteResponse : Prop :=
  (∀ (bc : Bool) (fc : Byte) (ra rc : Word) (s : State), ∃ b : Bool,
    exec (.valWrRsp bc fc ra rc) s = .next { s with result := some (.ok b) } ∧
    (b = true ↔ get8 s 0 = (if bc then s.broadcastId else s.slaveId) ∧ get8 s 1 = fc ∧
      ((get8 s 2).toNat = ra.toNat / 256 ∧ (get8 s 3).toNat = ra.toNat % 256) ∧
      ((get8 s 4).toNat = rc.toNat / 256 ∧ (get8 s 5).toNat = rc.toNat % 256) ∧
      validateCrc s 8 = true)) ∧
  (∀ (w : CmdWord) (s : State), opField w = 7 →
    (zField w ≠ 0 → runCommand w s = .next { s with result := some (.fault .illegalCmd) }) ∧
    (zField w = 0 → runCommand w s = exec (.valWrRsp (bcField w) (fcField w) (raField w) (rcField w)) s))

/-- VAL.WRRSP accepts exactly the echo frame (R94 a): `OK` is 1 if and only if `FB[0..7]` is the write response of R49
for the operands, equivalently if and only if it is what BLD.RDREQ would build from the same operands. -/
def Obligations.ValWrRspAcceptsExactlyTheEcho : Prop :=
  ∀ (bc : Bool) (fc : Byte) (ra rc : Word) (s : State),
    (exec (.valWrRsp bc fc ra rc) s = .next { s with result := some (.ok true) } ↔
      frameBytes s 8 = writeResponseFrame s.params (addrSel s bc) fc ra rc) ∧
    (∀ t, exec (.bldRdReq bc fc ra rc) s = .next t →
      (exec (.valWrRsp bc fc ra rc) s = .next { s with result := some (.ok true) } ↔
        frameBytes s 8 = frameBytes t 8))

/-- Any change of one byte of an accepted write response is rejected, header byte or trailer byte (R94 b, the source's
property S3). -/
def Obligations.ChangedByteOfWriteResponseIsRejected : Prop :=
  ∀ (bc : Bool) (fc : Byte) (ra rc : Word) (s : State) (j : Nat) (b : Byte),
    exec (.valWrRsp bc fc ra rc) s = .next { s with result := some (.ok true) } → j < 8 → b ≠ get8 s j →
    exec (.valWrRsp bc fc ra rc) (put8 j b s) = .next { put8 j b s with result := some (.ok false) }

/-- What BLD.RDREQ builds validates under VAL.WRRSP with the same operands (property S4, vector V-VW8). -/
def Obligations.BuiltReadRequestValidatesAsEcho : Prop :=
  ∀ (bc : Bool) (fc : Byte) (ra rc : Word) (s t : State), exec (.bldRdReq bc fc ra rc) s = .next t →
    exec (.valWrRsp bc fc ra rc) t = .next { t with result := some (.ok true) }

/-- R95: VAL.RDRSP writes nothing but the result port; its first three checks come before the capacity test, the CRC
check after it; check 3 compares natural numbers (D11). With a nonzero `z` it ends with `ILLEGAL_CMD`. -/
def Obligations.ValRdRspChecksTheReadResponse : Prop :=
  (∀ (bc : Bool) (fc : Byte) (rc : Word) (s : State),
    (¬ (get8 s 0 = (if bc then s.broadcastId else s.slaveId) ∧ get8 s 1 = fc ∧
        (get8 s 2).toNat = 2 * rc.toNat) →
      exec (.valRdRsp bc fc rc) s = .next { s with result := some (.ok false) }) ∧
    (get8 s 0 = (if bc then s.broadcastId else s.slaveId) → get8 s 1 = fc → (get8 s 2).toNat = 2 * rc.toNat →
      5 + 2 * rc.toNat > s.params.fbCap →
      exec (.valRdRsp bc fc rc) s = .next { s with result := some (.fault .frameOverrun) }) ∧
    (get8 s 0 = (if bc then s.broadcastId else s.slaveId) → get8 s 1 = fc → (get8 s 2).toNat = 2 * rc.toNat →
      5 + 2 * rc.toNat ≤ s.params.fbCap →
      exec (.valRdRsp bc fc rc) s = .next { s with result := some (.ok (validateCrc s (5 + 2 * rc.toNat))) })) ∧
  (∀ (w : CmdWord) (s : State), opField w = 8 →
    (zField w ≠ 0 → runCommand w s = .next { s with result := some (.fault .illegalCmd) }) ∧
    (zField w = 0 → runCommand w s = exec (.valRdRsp (bcField w) (fcField w) (rcField w)) s))

/-- VAL.RDRSP never succeeds and never faults for `n ≥ 128` (R96 d), and a `FRAME_OVERRUN` of it needs `FB_CAP < 259`. -/
def Obligations.ValRdRspFailsForLargeCounts : Prop :=
  (∀ (bc : Bool) (fc : Byte) (rc : Word) (s : State), 128 ≤ rc.toNat →
    exec (.valRdRsp bc fc rc) s = .next { s with result := some (.ok false) }) ∧
  (∀ (bc : Bool) (fc : Byte) (rc : Word) (s t : State), exec (.valRdRsp bc fc rc) s = .next t →
    t.result = some (.fault .frameOverrun) → s.params.fbCap < 259)

/-- VAL.RDRSP accepts exactly the read responses that fit (R96 a): `OK` is 1 if and only if `n ≤ 127`, the frame fits
`FB_CAP`, and `FB` holds the read response of R48 for some `n` register values. -/
def Obligations.ValRdRspAcceptsExactlyReadResponses : Prop :=
  ∀ (bc : Bool) (fc : Byte) (rc : Word) (s : State),
    exec (.valRdRsp bc fc rc) s = .next { s with result := some (.ok true) } ↔
      rc.toNat ≤ 127 ∧ 5 + 2 * rc.toNat ≤ s.params.fbCap ∧ ∃ vals : List Word, vals.length = rc.toNat ∧
        frameBytes s (5 + 2 * rc.toNat) = readResponseFrame s.params (addrSel s bc) fc vals

/-! ## The extract command -/

/-- R98: EXTRACT, with both fault conditions in their order before any write, and otherwise `VAL[i]` for `i < n` is
`FB[3+2i] * 256 + FB[4+2i]`, every other entry, `FB` and all other state unchanged; with a nonzero `z` it ends with
`ILLEGAL_CMD`. -/
def Obligations.ExtractProjectsThePayload : Prop :=
  (∀ (rc : Word) (s : State),
    (3 + 2 * rc.toNat > s.params.fbCap →
      exec (.extract rc) s = .next { s with result := some (.fault .frameOverrun) }) ∧
    (3 + 2 * rc.toNat ≤ s.params.fbCap → rc.toNat > s.params.valCap →
      exec (.extract rc) s = .next { s with result := some (.fault .valueOverrun) }) ∧
    (3 + 2 * rc.toNat ≤ s.params.fbCap → rc.toNat ≤ s.params.valCap → ∃ t,
      exec (.extract rc) s = .next t ∧
      t = { s with val := t.val, result := some .done } ∧
      (∀ i, i < rc.toNat → (getVal t i).toNat = (get8 s (3 + 2 * i)).toNat * 256 + (get8 s (4 + 2 * i)).toNat) ∧
      (∀ i, rc.toNat ≤ i → getVal t i = getVal s i))) ∧
  (∀ (w : CmdWord) (s : State), opField w = 9 →
    (zField w ≠ 0 → runCommand w s = .next { s with result := some (.fault .illegalCmd) }) ∧
    (zField w = 0 → runCommand w s = exec (.extract (rcField w)) s))

/-- Soundness of the response decoder: for at most 127 register values, if `FB` holds the read response of R48
carrying them (addressed by `bc`, function code `fc`) and the capacities suffice, VAL.RDRSP returns `OK = 1`, EXTRACT
completes on what it leaves, and `VAL[i]` is value `i` for each (R33, R96, R98, R100). -/
def Obligations.ValidatedReadResponseIsExtractedExactly : Prop :=
  ∀ (bc : Bool) (fc : Byte) (rc : Word) (vals : List Word) (s : State),
    vals.length = rc.toNat → rc.toNat ≤ 127 → 5 + 2 * rc.toNat ≤ s.params.fbCap → rc.toNat ≤ s.params.valCap →
    frameBytes s (5 + 2 * rc.toNat) = readResponseFrame s.params (addrSel s bc) fc vals → ∃ t u,
      exec (.valRdRsp bc fc rc) s = .next t ∧ t.result = some (.ok true) ∧
      exec (.extract rc) t = .next u ∧ u.result = some .done ∧ valEntries u rc.toNat = vals

/-! ## The configuration command -/

/-- R101: SET.SLAVE writes `SLAVE_ID` only, for every identifier, in every state; with a nonzero `z` it ends with
`ILLEGAL_CMD` and `bc`, `ra`, `rc` are ignored. -/
def Obligations.SetSlaveWritesSlaveIdOnly : Prop :=
  (∀ (id : Byte) (s : State), exec (.setSlave id) s = .next { s with slaveId := id, result := some .done }) ∧
  (∀ (w : CmdWord) (s : State), opField w = 10 →
    (zField w ≠ 0 → runCommand w s = .next { s with result := some (.fault .illegalCmd) }) ∧
    (zField w = 0 → runCommand w s = .next { s with slaveId := fcField w, result := some .done }))

/-- After SET.SLAVE a frame in `FB` is as it was (R102 c). The four commands that use an identity, each with `bc = 0`, use
the new identifier: the build commands put it at byte 0, the validate commands reject another byte 0 and accept exactly
as R93 and R95 say with it at byte 0. Each with `bc = 1` (`addressOperand i = some true` names exactly these forms) does
what it would have done without the SET.SLAVE, in result, `FB` and `VAL` (R102 b). -/
def Obligations.SetSlaveTakesEffectForTheNextCommand : Prop :=
  ∀ (id : Byte) (s t : State), exec (.setSlave id) s = .next t →
    (∀ j, get8 t j = get8 s j) ∧
    (∀ (fc : Byte) (ra rc : Word),
      (∃ u, exec (.bldRdReq false fc ra rc) t = .next u ∧ u.result = some .done ∧ get8 u 0 = id) ∧
      (9 + 2 * rc.toNat ≤ s.params.fbCap → rc.toNat ≤ s.params.valCap →
        ∃ u, exec (.bldWrReq false fc ra rc) t = .next u ∧ u.result = some .done ∧ get8 u 0 = id) ∧
      (exec (.valWrRsp false fc ra rc) t = .next { t with result := some (.ok true) } ↔
        get8 s 0 = id ∧ get8 s 1 = fc ∧ get16be s 2 = ra ∧ get16be s 4 = rc ∧ validateCrc s 8 = true) ∧
      (get8 s 0 ≠ id → exec (.valWrRsp false fc ra rc) t = .next { t with result := some (.ok false) }) ∧
      (exec (.valRdRsp false fc rc) t = .next { t with result := some (.ok true) } ↔
        get8 s 0 = id ∧ get8 s 1 = fc ∧ (get8 s 2).toNat = 2 * rc.toNat ∧ 5 + 2 * rc.toNat ≤ s.params.fbCap ∧
          validateCrc s (5 + 2 * rc.toNat) = true) ∧
      (get8 s 0 ≠ id → exec (.valRdRsp false fc rc) t = .next { t with result := some (.ok false) })) ∧
    (∀ i, addressOperand i = some true → ∃ u u', exec i t = .next u ∧ exec i s = .next u' ∧
      u = { u' with slaveId := id })

/-! ## Faults -/

/-- R116: a command that ends in a fault changes no state, the result port apart; no fault is sticky: the next command
runs as it would have run without the faulted one; and the run counts as gone wrong (`State.goneWrong`). -/
def Obligations.FaultsArePreciseAndNotSticky : Prop :=
  ∀ (w : CmdWord) (s t : State) (f : CmdFault), runCommand w s = .next t → t.result = some (.fault f) →
    t = { s with result := some (.fault f) } ∧ t.goneWrong = true ∧ ∀ w', runCommand w' t = runCommand w' s

/-- R113 and R114: the exact conditions of `FRAME_OVERRUN` and `VALUE_OVERRUN` for every command
(`Sys2Proof.Machine.overrunsFrame`, `overrunsValues`), with the priority of R118: an illegal word reports `ILLEGAL_CMD`
whatever else applies, and `FRAME_OVERRUN` masks `VALUE_OVERRUN`. -/
def Obligations.FaultConditionsAndPriority : Prop :=
  (∀ (i : Instr) (s : State), ∃ t, exec i s = .next t ∧
    (t.result = some (.fault .frameOverrun) ↔ overrunsFrame i s) ∧
    (t.result = some (.fault .valueOverrun) ↔ overrunsValues i s ∧ ¬ overrunsFrame i s) ∧
    t.result ≠ some (.fault .illegalCmd)) ∧
  (∀ (w : CmdWord) (e : DecodeError) (s t : State), decode w = .error e → runCommand w s = .next t →
    t.result = some (.fault .illegalCmd))

/-- R112: every command ends in exactly one of four ways, with `STATUS` 0 to 3; `LEN` is there exactly for the four LEN
commands and `OK` exactly for the two VAL commands that did not fault (R16). -/
def Obligations.EveryCommandReturnsOneResult : Prop :=
  ∀ (w : CmdWord) (s : State), ∃ t r, runCommand w s = .next t ∧ t.result = some r ∧
    (r.status = 0 ↔ ∀ f, r ≠ .fault f) ∧ (r.status = 1 ↔ r = .fault .illegalCmd) ∧
    (r.status = 2 ↔ r = .fault .frameOverrun) ∧ (r.status = 3 ↔ r = .fault .valueOverrun) ∧
    (∀ i, decode w = .ok i →
      ((∃ v, r.lenField = some v) ↔ i.mnemonic ∈ ([.lenRdReq, .lenRdRsp, .lenWrReq, .lenWrRsp] : List Mnemonic)) ∧
      ((∃ b, r.okField = some b) ↔ i.mnemonic ∈ ([.valWrRsp, .valRdRsp] : List Mnemonic) ∧ r.status = 0))

/-! ## Whole-machine rules -/

/-- The frame of every command (R21, R34): a command completes; the parameters, `BROADCAST_ID`, the reset number, the
pending actions and the host's read data are unchanged; `SLAVE_ID` is unchanged unless the command is SET.SLAVE; every
byte of `FB` outside the offsets the command writes and every entry of `VAL` outside the indices it writes reads as
before (`Sys2Proof.Machine.writesFb`, `writesVal`, from the lengths the meanings use). -/
def Obligations.CommandsWriteOnlyTheirFootprint : Prop :=
  ∀ (i : Instr) (s : State), ∃ t, exec i s = .next t ∧
    t.params = s.params ∧ t.broadcastId = s.broadcastId ∧ t.epoch = s.epoch ∧ t.pending = s.pending ∧
    t.hostRead = s.hostRead ∧
    ((∀ id, i ≠ .setSlave id) → t.slaveId = s.slaveId) ∧
    (∀ j, ¬ writesFb i j → get8 t j = get8 s j) ∧
    (∀ j, ¬ writesVal i j → getVal t j = getVal s j)

/-- Noninterference (R23): what a command returns and writes is a function of the command, the identity
registers and the bytes and entries inside its footprint; two states of the same block that agree on these give the
same result and the same written bytes and entries. -/
def Obligations.ResultsDependOnTheFootprintOnly : Prop :=
  ∀ (i : Instr) (s₁ s₂ t₁ t₂ : State), s₁.params = s₂.params → s₁.slaveId = s₂.slaveId →
    s₁.broadcastId = s₂.broadcastId → (∀ j, readsFb i j → get8 s₁ j = get8 s₂ j) →
    (∀ j, readsVal i j → getVal s₁ j = getVal s₂ j) → exec i s₁ = .next t₁ → exec i s₂ = .next t₂ →
    t₁.result = t₂.result ∧ t₁.slaveId = t₂.slaveId ∧
      ((∀ f, t₁.result ≠ some (.fault f)) →
        (∀ j, writesFb i j → get8 t₁ j = get8 t₂ j) ∧ (∀ j, writesVal i j → getVal t₁ j = getVal t₂ j))

/-- No free value leaks (R131): a command whose footprint has been written since reset does exactly the same
whatever the unwritten locations hold. The free values are selected by the model's own field `epoch` (log 6); the
statement is for every value of it. -/
def Obligations.WrittenFootprintHidesFreeValues : Prop :=
  ∀ (i : Instr) (s t : State) (k : Nat), footprintWritten i s → exec i s = .next t →
    exec i { s with epoch := k } = .next { t with epoch := k }

/-- Every command is idempotent (R23, R31): repeating it with nothing between gives the same result and the same state.
Stated under the invariant, which rules out memories no run reaches. -/
def Obligations.RepeatingACommandChangesNothing : Prop :=
  ∀ (i : Instr) (s t : State), s.Inv → exec i s = .next t → exec i t = .next t

/-- `BROADCAST_ID` is fixed (R12): reset loads it from `INIT_BROADCAST_ID`, `ADDRSEL` reads it when `bc` is 1, and no
command writes it in any state. That no step changes it, a further reset included (R130), rests on the model's choice of
reset as a host action that reloads the same parameters (log 9); it is stated under the invariant, by which the register
holds the parameter. -/
def Obligations.BroadcastIdIsImmutable : Prop :=
  (∀ (p : Params) (k : Nat), (State.resetWith p k).broadcastId = p.initBroadcastId) ∧
  (∀ s : State, addrSel s true = s.broadcastId) ∧
  (∀ (i : Instr) (s t : State), exec i s = .next t → t.broadcastId = s.broadcastId) ∧
  (∀ s t : State, s.Inv → step s = .next t → t.broadcastId = s.broadcastId)

/-- R11: `SLAVE_ID` is written by reset and by SET.SLAVE, and by nothing else. -/
def Obligations.OnlySetSlaveAndResetWriteSlaveId : Prop :=
  ∀ s t : State, step s = .next t →
    t.slaveId = s.slaveId ∨
    (∃ w rest id, s.pending = .command w :: rest ∧ decode w = .ok (.setSlave id) ∧ t.slaveId = id) ∨
    (∃ rest, s.pending = .reset :: rest ∧ t.slaveId = s.params.initSlaveId)

/-- Commands are never read from `FB` or `VAL` (R42): whatever these hold, a step takes the host's next action, in the
state as it is, and leaves the host's further actions as they were. -/
def Obligations.DataSpacesNeverChooseTheCommand : Prop :=
  ∀ (s : State) (a : HostAction) (rest : List HostAction) (fb : List Host.Cell) (val : List (Nat × Word)),
    s.pending = a :: rest →
      step { s with fb := fb, val := val } =
        perform a { s with fb := fb, val := val, pending := rest, result := none, hostRead := none } ∧
      ∀ t, step { s with fb := fb, val := val } = .next t → t.pending = rest

/-! ## Host actions, reset, idling -/

/-- R40: the four host actions, each with the effect stated and no other, for every offset and index in range. -/
def Obligations.HostActionsReadAndWriteTheDataSpaces : Prop :=
  ∀ s : State,
    (∀ off b, off < s.params.fbCap → ∃ t, perform (.wrFb off b) s = .next t ∧ t = { s with fb := t.fb } ∧
      get8 t off = b ∧ ∀ j, j ≠ off → get8 t j = get8 s j) ∧
    (∀ off, off < s.params.fbCap →
      perform (.rdFb off) s = .next { s with hostRead := some (.fbByte (get8 s off)) }) ∧
    (∀ i v, i < s.params.valCap → ∃ t, perform (.wrVal i v) s = .next t ∧ t = { s with val := t.val } ∧
      getVal t i = v ∧ ∀ j, j ≠ i → getVal t j = getVal s j) ∧
    (∀ i, i < s.params.valCap →
      perform (.rdVal i) s = .next { s with hostRead := some (.valEntry (getVal s i)) })

/-- `HOST.LOADFB` (R60, R40): the abbreviated writes, run one step each, leave the bytes in `FB` from offset 0 and nothing
else changed but the ports. -/
def Obligations.LoadFbPlacesAFrame : Prop :=
  ∀ (bytes : List Byte) (s : State) (rest : List HostAction),
    s.pending = HostAction.loadFb 0 bytes ++ rest → bytes.length ≤ s.params.fbCap → ∃ t,
      core.run bytes.length s = .next t ∧ t.pending = rest ∧ frameBytes t bytes.length = bytes ∧
      (∀ j, bytes.length ≤ j → get8 t j = get8 s j) ∧
      t = { s with fb := t.fb, pending := rest, result := t.result, hostRead := t.hostRead }

/-- R20: after reset with given parameters the identity registers hold `INIT_SLAVE_ID` and `INIT_BROADCAST_ID`, and no
byte of `FB` and no entry of `VAL` has been written: every one is unspecified. -/
def Obligations.ResetLoadsTheIdentities : Prop :=
  ∀ (p : Params) (k : Nat),
    (State.resetWith p k).slaveId = p.initSlaveId ∧ (State.resetWith p k).broadcastId = p.initBroadcastId ∧
    (∀ j, Memory.read (State.resetWith p k).fb j = none) ∧ (∀ i, Memory.read (State.resetWith p k).val i = none)

/-- The model's choices for reset: the parameter values of `State.reset` and the identities they give (log 4, log 5); an
unwritten byte or entry reads as a free value (log 6); the ports hold nothing and nothing is pending (log 1, log 2). -/
def Obligations.ResetStateOfTheModel : Prop :=
  State.reset.slaveId = 0x05 ∧ State.reset.broadcastId = 0x00 ∧
  State.reset.params.initSlaveId = 0x05 ∧ State.reset.params.initBroadcastId = 0x00 ∧
  State.reset.params.fbCap = 512 ∧ State.reset.params.valCap = 256 ∧ State.reset.params.crcLowFirst = true ∧
  (∀ j, get8 State.reset j = Config.freeByte State.reset.epoch j) ∧
  (∀ i, getVal State.reset i = Config.freeEntry State.reset.epoch i) ∧
  State.reset.pending = [] ∧ State.reset.result = none ∧ State.reset.hostRead = none ∧
  ∀ (p : Params) (k : Nat),
    (∀ j, get8 (State.resetWith p k) j = Config.freeByte k j) ∧
    (∀ i, getVal (State.resetWith p k) i = Config.freeEntry k i) ∧
    (State.resetWith p k).pending = [] ∧ (State.resetWith p k).result = none ∧
    (State.resetWith p k).hostRead = none

/-- Reset applied again between commands behaves as a fresh construction (R130): the parameters stay, the identities are
reloaded from them, `FB` and `VAL` are unspecified anew; the host's further actions stay (log 9). -/
def Obligations.ResetAgainIsAFreshConstruction : Prop :=
  ∀ (s : State) (rest : List HostAction), s.pending = .reset :: rest →
    step s = .next { State.resetWith s.params (s.epoch + 1) with pending := rest }

/-- With nothing pending the block is idle and holds its state (R126); that an idle step is a step which changes nothing is
the model's choice (log 1). -/
def Obligations.IdleBlockHoldsItsState : Prop := ∀ s : State, s.pending = [] → step s = .next s

/-! ## The invariant -/

/-- The invariant holds after reset, for every block whose parameters meet the spec's constraint. -/
def Obligations.ResetSatisfiesTheInvariant : Prop :=
  (∀ (p : Params) (k : Nat), p.wf → (State.resetWith p k).Inv) ∧ State.reset.Inv

/-- Headline, invariant: from every state that meets it, reached or not, every step that answers a next state keeps the
parameter constraint, the loaded `BROADCAST_ID`, and both memories canonical below their capacities: no command and no
host action ever writes outside the capacity (R35). -/
def Obligations.EveryStepKeepsTheInvariant : Prop :=
  ∀ s t : State, s.Inv → step s = .next t → t.Inv ∧ t.params = s.params

/-- The machine never stops while the host's actions name locations that exist (R40, R116), and they go on doing so. -/
def Obligations.InBoundsActionsNeverStopTheMachine : Prop :=
  ∀ s : State, s.hostInBounds → ∃ t, step s = .next t ∧ t.hostInBounds

/-- An action the spec calls not expressible (R40), an offset or index beyond the capacity, stops the machine with the
fault of its space (log 8). -/
def Obligations.OutOfRangeHostActionsStop : Prop :=
  ∀ s : State,
    (∀ off b, s.params.fbCap ≤ off → perform (.wrFb off b) s = .fault .noSuchOffset) ∧
    (∀ off, s.params.fbCap ≤ off → perform (.rdFb off) s = .fault .noSuchOffset) ∧
    (∀ i v, s.params.valCap ≤ i → perform (.wrVal i v) s = .fault .noSuchIndex) ∧
    (∀ i, s.params.valCap ≤ i → perform (.rdVal i) s = .fault .noSuchIndex)

/-- Equal memories are equal data, for `FB`'s bytes, `VAL`'s entries and values of any other type: two memories in the
canonical form that read alike everywhere are the same list. The form is the model's choice (log 7). -/
def Obligations.CanonicalMemoriesAreUnique : Prop :=
  ∀ (α : Type) (cap : Nat) (m₁ m₂ : Memory α), Memory.wf cap m₁ → Memory.wf cap m₂ →
    (∀ a, Memory.read m₁ a = Memory.read m₂ a) → m₁ = m₂
end

