-- ==== Sys2Proof/Laws/Memory.lean ====
section
/-! SUPPORT. Sys2Proof/Laws/Memory.lean: read after write, and that a write keeps the canonical form. -/

namespace Sys2Proof.Machine

variable {α : Type}

theorem Memory.read_nil (a : Nat) : Memory.read ([] : Memory α) a = none := rfl

/-- A read gives what the last write to the same location stored. -/
@[simp] theorem Memory.read_store_same (m : Memory α) (a : Nat) (v : α) :
    Memory.read (Memory.store m a v) a = some v := by
  induction m with
  | nil => simp [Memory.store, Memory.read]
  | cons c rest ih =>
    obtain ⟨b, w⟩ := c
    unfold Memory.store
    split
    · simp [Memory.read]
    · split
      · simp [Memory.read]
      · simp [Memory.read, *]

/-- A write leaves every other location alone. -/
theorem Memory.read_store_other (m : Memory α) {a a' : Nat} (v : α) (h : a' ≠ a) :
    Memory.read (Memory.store m a v) a' = Memory.read m a' := by
  induction m with
  | nil => simp [Memory.store, Memory.read, h]
  | cons c rest ih =>
    obtain ⟨b, w⟩ := c
    unfold Memory.store
    split
    · simp [Memory.read, h]
    · split
      · simp_all [Memory.read]
      · simp [Memory.read, ih]

theorem Memory.read_store (m : Memory α) (a a' : Nat) (v : α) :
    Memory.read (Memory.store m a v) a' = if a' = a then some v else Memory.read m a' := by
  split
  · simp_all
  · exact Memory.read_store_other m v ‹_›

/-- Every listed location of a store is the one written or was listed before. -/
theorem Memory.mem_store {m : Memory α} {a : Nat} {v : α} {c : Nat × α} (h : c ∈ Memory.store m a v) :
    c = (a, v) ∨ c ∈ m := by
  induction m with
  | nil => simpa [Memory.store] using h
  | cons d rest ih =>
    obtain ⟨b, w⟩ := d
    unfold Memory.store at h
    split at h
    · simpa using h
    · split at h
      · simp only [List.mem_cons] at h ⊢; tauto
      · simp only [List.mem_cons] at h ⊢
        rcases h with h | h
        · tauto
        · rcases ih h with h | h <;> tauto

/-- A write below the capacity keeps the canonical form. -/
theorem Memory.store_wf {cap : Nat} {m : Memory α} {a : Nat} {v : α} (hm : Memory.wf cap m) (ha : a < cap) :
    Memory.wf cap (Memory.store m a v) := by
  refine ⟨?_, fun c hc => ?_⟩
  · have hp := hm.1
    clear hm ha
    induction m with
    | nil => simp [Memory.store]
    | cons d rest ih =>
      obtain ⟨b, w⟩ := d
      rw [List.pairwise_cons] at hp
      unfold Memory.store
      split
      · rename_i hab
        simp only [List.pairwise_cons, List.mem_cons]
        refine ⟨fun c hc => ?_, hp⟩
        rcases hc with rfl | hc
        · exact hab
        · exact lt_trans hab (hp.1 c hc)
      · split
        · rename_i hab
          subst hab
          exact List.pairwise_cons.2 ⟨hp.1, hp.2⟩
        · rename_i h1 h2
          refine List.pairwise_cons.2 ⟨fun c hc => ?_, ih hp.2⟩
          rcases Memory.mem_store hc with rfl | hc
          · simp only; omega
          · exact hp.1 c hc
  · rcases Memory.mem_store hc with rfl | hc
    · exact ha
    · exact hm.2 c hc

/-- The empty memory is canonical. -/
theorem Memory.nil_wf (cap : Nat) : Memory.wf cap ([] : Memory α) :=
  ⟨List.Pairwise.nil, fun _ h => absurd h (by simp)⟩

/-- In a canonical memory nothing is listed below its first index. -/
theorem Memory.read_eq_none_of_lt {m : Memory α} {a : Nat} (h : ∀ c ∈ m, a < c.1) : Memory.read m a = none := by
  induction m with
  | nil => rfl
  | cons d rest ih =>
    obtain ⟨b, w⟩ := d
    have hb : a < b := h (b, w) (by simp)
    simp only [Memory.read, if_neg (Nat.ne_of_lt hb)]
    exact ih fun c hc => h c (by simp [hc])

/-- A written location is below the capacity. -/
theorem Memory.lt_of_read_isSome {cap : Nat} {m : Memory α} {a : Nat} (hm : Memory.wf cap m)
    (h : (Memory.read m a).isSome) : a < cap := by
  have hb := hm.2
  clear hm
  induction m with
  | nil => simp [Memory.read] at h
  | cons d rest ih =>
    obtain ⟨b, w⟩ := d
    unfold Memory.read at h
    split at h
    · rename_i hab; subst hab; exact hb (a, w) (by simp)
    · exact ih h fun c hc => hb c (by simp [hc])

end Sys2Proof.Machine
end

