-- ==== Sys2Proof/Laws/State.lean ====
section
/-! SUPPORT. Sys2Proof/Laws/State.lean: one lemma per field per update, so that no proof unfolds a record update. -/

namespace Sys2Proof.Machine

@[simp] theorem State.withSlaveId_params (s : State) (id : Byte) : (s.withSlaveId id).params = s.params := rfl
@[simp] theorem State.withSlaveId_slaveId (s : State) (id : Byte) : (s.withSlaveId id).slaveId = id := rfl
@[simp] theorem State.withSlaveId_broadcastId (s : State) (id : Byte) : (s.withSlaveId id).broadcastId = s.broadcastId := rfl
@[simp] theorem State.withSlaveId_fb (s : State) (id : Byte) : (s.withSlaveId id).fb = s.fb := rfl
@[simp] theorem State.withSlaveId_val (s : State) (id : Byte) : (s.withSlaveId id).val = s.val := rfl
@[simp] theorem State.withSlaveId_epoch (s : State) (id : Byte) : (s.withSlaveId id).epoch = s.epoch := rfl
@[simp] theorem State.withSlaveId_pending (s : State) (id : Byte) : (s.withSlaveId id).pending = s.pending := rfl
@[simp] theorem State.withSlaveId_result (s : State) (id : Byte) : (s.withSlaveId id).result = s.result := rfl
@[simp] theorem State.withSlaveId_hostRead (s : State) (id : Byte) : (s.withSlaveId id).hostRead = s.hostRead := rfl

@[simp] theorem State.withFb_params (s : State) (m : List Host.Cell) : (s.withFb m).params = s.params := rfl
@[simp] theorem State.withFb_slaveId (s : State) (m : List Host.Cell) : (s.withFb m).slaveId = s.slaveId := rfl
@[simp] theorem State.withFb_broadcastId (s : State) (m : List Host.Cell) : (s.withFb m).broadcastId = s.broadcastId := rfl
@[simp] theorem State.withFb_fb (s : State) (m : List Host.Cell) : (s.withFb m).fb = m := rfl
@[simp] theorem State.withFb_val (s : State) (m : List Host.Cell) : (s.withFb m).val = s.val := rfl
@[simp] theorem State.withFb_epoch (s : State) (m : List Host.Cell) : (s.withFb m).epoch = s.epoch := rfl
@[simp] theorem State.withFb_pending (s : State) (m : List Host.Cell) : (s.withFb m).pending = s.pending := rfl
@[simp] theorem State.withFb_result (s : State) (m : List Host.Cell) : (s.withFb m).result = s.result := rfl
@[simp] theorem State.withFb_hostRead (s : State) (m : List Host.Cell) : (s.withFb m).hostRead = s.hostRead := rfl

@[simp] theorem State.withVal_params (s : State) (m : List (Nat × Word)) : (s.withVal m).params = s.params := rfl
@[simp] theorem State.withVal_slaveId (s : State) (m : List (Nat × Word)) : (s.withVal m).slaveId = s.slaveId := rfl
@[simp] theorem State.withVal_broadcastId (s : State) (m : List (Nat × Word)) : (s.withVal m).broadcastId = s.broadcastId := rfl
@[simp] theorem State.withVal_fb (s : State) (m : List (Nat × Word)) : (s.withVal m).fb = s.fb := rfl
@[simp] theorem State.withVal_val (s : State) (m : List (Nat × Word)) : (s.withVal m).val = m := rfl
@[simp] theorem State.withVal_epoch (s : State) (m : List (Nat × Word)) : (s.withVal m).epoch = s.epoch := rfl
@[simp] theorem State.withVal_pending (s : State) (m : List (Nat × Word)) : (s.withVal m).pending = s.pending := rfl
@[simp] theorem State.withVal_result (s : State) (m : List (Nat × Word)) : (s.withVal m).result = s.result := rfl
@[simp] theorem State.withVal_hostRead (s : State) (m : List (Nat × Word)) : (s.withVal m).hostRead = s.hostRead := rfl

@[simp] theorem State.withPending_params (s : State) (q : List HostAction) : (s.withPending q).params = s.params := rfl
@[simp] theorem State.withPending_slaveId (s : State) (q : List HostAction) : (s.withPending q).slaveId = s.slaveId := rfl
@[simp] theorem State.withPending_broadcastId (s : State) (q : List HostAction) : (s.withPending q).broadcastId = s.broadcastId := rfl
@[simp] theorem State.withPending_fb (s : State) (q : List HostAction) : (s.withPending q).fb = s.fb := rfl
@[simp] theorem State.withPending_val (s : State) (q : List HostAction) : (s.withPending q).val = s.val := rfl
@[simp] theorem State.withPending_epoch (s : State) (q : List HostAction) : (s.withPending q).epoch = s.epoch := rfl
@[simp] theorem State.withPending_pending (s : State) (q : List HostAction) : (s.withPending q).pending = q := rfl
@[simp] theorem State.withPending_result (s : State) (q : List HostAction) : (s.withPending q).result = s.result := rfl
@[simp] theorem State.withPending_hostRead (s : State) (q : List HostAction) : (s.withPending q).hostRead = s.hostRead := rfl

@[simp] theorem State.withResult_params (s : State) (r : Option Result) : (s.withResult r).params = s.params := rfl
@[simp] theorem State.withResult_slaveId (s : State) (r : Option Result) : (s.withResult r).slaveId = s.slaveId := rfl
@[simp] theorem State.withResult_broadcastId (s : State) (r : Option Result) : (s.withResult r).broadcastId = s.broadcastId := rfl
@[simp] theorem State.withResult_fb (s : State) (r : Option Result) : (s.withResult r).fb = s.fb := rfl
@[simp] theorem State.withResult_val (s : State) (r : Option Result) : (s.withResult r).val = s.val := rfl
@[simp] theorem State.withResult_epoch (s : State) (r : Option Result) : (s.withResult r).epoch = s.epoch := rfl
@[simp] theorem State.withResult_pending (s : State) (r : Option Result) : (s.withResult r).pending = s.pending := rfl
@[simp] theorem State.withResult_result (s : State) (r : Option Result) : (s.withResult r).result = r := rfl
@[simp] theorem State.withResult_hostRead (s : State) (r : Option Result) : (s.withResult r).hostRead = s.hostRead := rfl

@[simp] theorem State.withHostRead_params (s : State) (d : Option HostRead) : (s.withHostRead d).params = s.params := rfl
@[simp] theorem State.withHostRead_slaveId (s : State) (d : Option HostRead) : (s.withHostRead d).slaveId = s.slaveId := rfl
@[simp] theorem State.withHostRead_broadcastId (s : State) (d : Option HostRead) : (s.withHostRead d).broadcastId = s.broadcastId := rfl
@[simp] theorem State.withHostRead_fb (s : State) (d : Option HostRead) : (s.withHostRead d).fb = s.fb := rfl
@[simp] theorem State.withHostRead_val (s : State) (d : Option HostRead) : (s.withHostRead d).val = s.val := rfl
@[simp] theorem State.withHostRead_epoch (s : State) (d : Option HostRead) : (s.withHostRead d).epoch = s.epoch := rfl
@[simp] theorem State.withHostRead_pending (s : State) (d : Option HostRead) : (s.withHostRead d).pending = s.pending := rfl
@[simp] theorem State.withHostRead_result (s : State) (d : Option HostRead) : (s.withHostRead d).result = s.result := rfl
@[simp] theorem State.withHostRead_hostRead (s : State) (d : Option HostRead) : (s.withHostRead d).hostRead = d := rfl

@[simp] theorem State.resetWith_params (p : Params) (k : Nat) : (State.resetWith p k).params = p := rfl
@[simp] theorem State.resetWith_slaveId (p : Params) (k : Nat) : (State.resetWith p k).slaveId = p.initSlaveId := rfl
@[simp] theorem State.resetWith_broadcastId (p : Params) (k : Nat) : (State.resetWith p k).broadcastId = p.initBroadcastId := rfl
@[simp] theorem State.resetWith_fb (p : Params) (k : Nat) : (State.resetWith p k).fb = [] := rfl
@[simp] theorem State.resetWith_val (p : Params) (k : Nat) : (State.resetWith p k).val = [] := rfl
@[simp] theorem State.resetWith_epoch (p : Params) (k : Nat) : (State.resetWith p k).epoch = k := rfl
@[simp] theorem State.resetWith_pending (p : Params) (k : Nat) : (State.resetWith p k).pending = [] := rfl
@[simp] theorem State.resetWith_result (p : Params) (k : Nat) : (State.resetWith p k).result = none := rfl
@[simp] theorem State.resetWith_hostRead (p : Params) (k : Nat) : (State.resetWith p k).hostRead = none := rfl

/-- Writing `FB` alone, twice, is writing `FB` alone. -/
theorem State.eq_withFb_trans {s t u : State} (h₁ : t = s.withFb t.fb) (h₂ : u = t.withFb u.fb) :
    u = s.withFb u.fb := by
  conv_lhs => rw [h₂, h₁]
  rfl

end Sys2Proof.Machine
end

