-- ==== Sys2Proof/Laws/Ops.lean ====
section
/-! SUPPORT. Sys2Proof/Laws/Ops.lean: what each shared operation does and what it leaves alone. -/

namespace Sys2Proof.Machine

/-! ## Bytes of a 16-bit value -/

theorem hiByte_toNat (v : Word) : (hiByte v).toNat = v.toNat / 256 := by
  have := v.isLt
  simp only [hiByte, BitVec.extractLsb'_toNat, Nat.shiftRight_eq_div_pow]
  omega

theorem loByte_toNat (v : Word) : (loByte v).toNat = v.toNat % 256 := by
  simp [loByte, BitVec.extractLsb'_toNat]

theorem joinBytes_toNat (hi lo : Byte) : (joinBytes hi lo).toNat = hi.toNat * 256 + lo.toNat := by
  have := lo.isLt
  simp only [joinBytes, BitVec.toNat_append]
  rw [Nat.shiftLeft_eq, Nat.mul_comm, ← Nat.two_pow_add_eq_or_of_lt this, Nat.mul_comm]

@[simp] theorem joinBytes_split (v : Word) : joinBytes (hiByte v) (loByte v) = v := by
  apply BitVec.eq_of_toNat_eq
  rw [joinBytes_toNat, hiByte_toNat, loByte_toNat]
  omega

@[simp] theorem hiByte_join (hi lo : Byte) : hiByte (joinBytes hi lo) = hi := by
  apply BitVec.eq_of_toNat_eq
  have := lo.isLt
  rw [hiByte_toNat, joinBytes_toNat]
  omega

@[simp] theorem loByte_join (hi lo : Byte) : loByte (joinBytes hi lo) = lo := by
  apply BitVec.eq_of_toNat_eq
  have := lo.isLt
  rw [loByte_toNat, joinBytes_toNat]
  omega

/-- Two values are equal when their bytes are. -/
theorem joinBytes_eq_iff (hi lo : Byte) (v : Word) : joinBytes hi lo = v ↔ hi = hiByte v ∧ lo = loByte v := by
  constructor
  · rintro rfl; simp
  · rintro ⟨rfl, rfl⟩; simp

theorem payloadByteCount_toNat (n : Nat) : (payloadByteCount n).toNat = 2 * n % 256 := by
  simp [payloadByteCount, trunc8]

/-! ## `PUT8`, `PUT16BE`, `VAL[i] <- v`: fields they leave alone -/

@[simp] theorem put8_params (off : Nat) (v : Byte) (s : State) : (put8 off v s).params = s.params := rfl
@[simp] theorem put8_slaveId (off : Nat) (v : Byte) (s : State) : (put8 off v s).slaveId = s.slaveId := rfl
@[simp] theorem put8_broadcastId (off : Nat) (v : Byte) (s : State) : (put8 off v s).broadcastId = s.broadcastId := rfl
@[simp] theorem put8_val (off : Nat) (v : Byte) (s : State) : (put8 off v s).val = s.val := rfl
@[simp] theorem put8_epoch (off : Nat) (v : Byte) (s : State) : (put8 off v s).epoch = s.epoch := rfl
@[simp] theorem put8_pending (off : Nat) (v : Byte) (s : State) : (put8 off v s).pending = s.pending := rfl
@[simp] theorem put8_result (off : Nat) (v : Byte) (s : State) : (put8 off v s).result = s.result := rfl
@[simp] theorem put8_hostRead (off : Nat) (v : Byte) (s : State) : (put8 off v s).hostRead = s.hostRead := rfl
@[simp] theorem put8_fb (off : Nat) (v : Byte) (s : State) : (put8 off v s).fb = Memory.store s.fb off v := rfl

@[simp] theorem putVal_params (i : Nat) (v : Word) (s : State) : (putVal i v s).params = s.params := rfl
@[simp] theorem putVal_slaveId (i : Nat) (v : Word) (s : State) : (putVal i v s).slaveId = s.slaveId := rfl
@[simp] theorem putVal_broadcastId (i : Nat) (v : Word) (s : State) : (putVal i v s).broadcastId = s.broadcastId := rfl
@[simp] theorem putVal_fb (i : Nat) (v : Word) (s : State) : (putVal i v s).fb = s.fb := rfl
@[simp] theorem putVal_epoch (i : Nat) (v : Word) (s : State) : (putVal i v s).epoch = s.epoch := rfl
@[simp] theorem putVal_pending (i : Nat) (v : Word) (s : State) : (putVal i v s).pending = s.pending := rfl
@[simp] theorem putVal_result (i : Nat) (v : Word) (s : State) : (putVal i v s).result = s.result := rfl
@[simp] theorem putVal_hostRead (i : Nat) (v : Word) (s : State) : (putVal i v s).hostRead = s.hostRead := rfl
@[simp] theorem putVal_val (i : Nat) (v : Word) (s : State) : (putVal i v s).val = Memory.store s.val i v := rfl

/-! ## Reads after writes -/

/-- A byte read depends on the stored bytes and the reset's number alone. -/
theorem get8_congr {s t : State} (hf : t.fb = s.fb) (he : t.epoch = s.epoch) (j : Nat) : get8 t j = get8 s j := by
  simp [get8, hf, he]

/-- An entry read depends on the stored entries and the reset's number alone. -/
theorem getVal_congr {s t : State} (hf : t.val = s.val) (he : t.epoch = s.epoch) (j : Nat) :
    getVal t j = getVal s j := by
  simp [getVal, hf, he]

theorem get8_put8 (off : Nat) (v : Byte) (s : State) (j : Nat) :
    get8 (put8 off v s) j = if j = off then v else get8 s j := by
  simp only [get8, put8_fb, put8_epoch, Memory.read_store]
  split <;> simp

theorem get8_put16be (off : Nat) (v : Word) (s : State) (j : Nat) :
    get8 (put16be off v s) j =
      if j = off + 1 then loByte v else if j = off then hiByte v else get8 s j := by
  simp [put16be, get8_put8]

@[simp] theorem getVal_put8 (off : Nat) (v : Byte) (s : State) (i : Nat) : getVal (put8 off v s) i = getVal s i := rfl

@[simp] theorem getVal_put16be (off : Nat) (v : Word) (s : State) (i : Nat) :
    getVal (put16be off v s) i = getVal s i := rfl

theorem getVal_putVal (i : Nat) (v : Word) (s : State) (j : Nat) :
    getVal (putVal i v s) j = if j = i then v else getVal s j := by
  simp only [getVal, putVal_val, putVal_epoch, Memory.read_store]
  split <;> simp

@[simp] theorem get8_putVal (i : Nat) (v : Word) (s : State) (j : Nat) : get8 (putVal i v s) j = get8 s j := rfl

/-- A write of `FB` changes no field but `fb`. -/
theorem put8_eq (off : Nat) (v : Byte) (s : State) : put8 off v s = s.withFb (put8 off v s).fb := rfl

/-! ## The frame's bytes as a list -/

@[simp] theorem frameBytes_length (s : State) (len : Nat) : (frameBytes s len).length = len := by simp [frameBytes]

theorem frameBytes_getElem (s : State) (len j : Nat) (h : j < (frameBytes s len).length) :
    (frameBytes s len)[j] = get8 s j := by simp [frameBytes]

/-- Two states with the same bytes below `len` have the same frame of that length. -/
theorem frameBytes_congr {s t : State} {len : Nat} (h : ∀ j < len, get8 t j = get8 s j) :
    frameBytes t len = frameBytes s len := by
  apply List.map_congr_left
  intro j hj
  exact h j (List.mem_range.1 hj)

theorem frameBytes_succ (s : State) (len : Nat) : frameBytes s (len + 1) = frameBytes s len ++ [get8 s len] := by
  simp [frameBytes, List.range_succ]

/-- A frame is a given byte list exactly when each byte is. -/
theorem frameBytes_eq_iff (s : State) (bytes : List Byte) :
    frameBytes s bytes.length = bytes ↔ ∀ (j : Nat) (h : j < bytes.length), get8 s j = bytes[j] := by
  constructor
  · intro h j hj
    have hj' : j < (frameBytes s bytes.length).length := by simpa using hj
    rw [← frameBytes_getElem s bytes.length j hj']
    simp [h]
  · intro h
    apply List.ext_getElem (by simp)
    intro j hj _
    rw [frameBytes_getElem]
    exact h j (by simpa using hj)

/-! ## `CRC16` -/

theorem crcBytes_append (c : Word) (xs ys : List Byte) : crcBytes c (xs ++ ys) = crcBytes (crcBytes c xs) ys := by
  induction xs generalizing c with
  | nil => rfl
  | cons x xs ih => exact ih _

theorem crcRounds_eq_iterate (k : Nat) (c : Word) : crcRounds k c = Nat.iterate crcBit k c := by
  induction k generalizing c with
  | zero => rfl
  | succ k ih => exact ih _

/-! ## `APPEND_CRC` and `VALIDATE_CRC` -/

@[simp] theorem appendCrc_params (len : Nat) (s : State) : (appendCrc len s).params = s.params := rfl
@[simp] theorem appendCrc_epoch (len : Nat) (s : State) : (appendCrc len s).epoch = s.epoch := rfl

theorem appendCrc_eq (len : Nat) (s : State) : appendCrc len s = s.withFb (appendCrc len s).fb := rfl

theorem get8_appendCrc (len : Nat) (s : State) (j : Nat) :
    get8 (appendCrc len s) j =
      if j = len + 1 then trailerSecond s.params (crc16 (frameBytes s len))
      else if j = len then trailerFirst s.params (crc16 (frameBytes s len))
      else get8 s j := by
  simp [appendCrc, get8_put8]

/-- `APPEND_CRC` leaves the bytes it covers alone. -/
theorem frameBytes_appendCrc (len : Nat) (s : State) : frameBytes (appendCrc len s) len = frameBytes s len := by
  apply frameBytes_congr
  intro j hj
  rw [get8_appendCrc, if_neg (by omega), if_neg (by omega)]

/-- The frame that `APPEND_CRC` leaves is the covered bytes with their trailer. -/
theorem frameBytes_appendCrc_trailer (len : Nat) (s : State) :
    frameBytes (appendCrc len s) (len + 2) = withTrailer s.params (frameBytes s len) := by
  rw [frameBytes_succ, frameBytes_succ, frameBytes_appendCrc, get8_appendCrc, get8_appendCrc]
  simp [withTrailer]

theorem validateCrc_eq_true_iff (s : State) (total : Nat) :
    validateCrc s total = true ↔
      get8 s (total - 2) = trailerFirst s.params (crc16 (frameBytes s (total - 2))) ∧
        get8 s (total - 1) = trailerSecond s.params (crc16 (frameBytes s (total - 2))) := by
  simp [validateCrc]

/-- `VALIDATE_CRC` looks at the bytes below its length alone. -/
theorem validateCrc_congr {s t : State} {total : Nat} (hp : t.params = s.params) (ht : 2 ≤ total)
    (h : ∀ j < total, get8 t j = get8 s j) : validateCrc t total = validateCrc s total := by
  have hf : frameBytes t (total - 2) = frameBytes s (total - 2) := frameBytes_congr fun j hj => h j (by omega)
  simp [validateCrc, hp, hf, h (total - 2) (by omega), h (total - 1) (by omega)]

theorem trailerFirst_toNat (p : Params) (c : Word) :
    (trailerFirst p c).toNat = if p.crcLowFirst then c.toNat % 256 else c.toNat / 256 := by
  unfold trailerFirst; split <;> simp [loByte_toNat, hiByte_toNat]

theorem trailerSecond_toNat (p : Params) (c : Word) :
    (trailerSecond p c).toNat = if p.crcLowFirst then c.toNat / 256 else c.toNat % 256 := by
  unfold trailerSecond; split <;> simp [loByte_toNat, hiByte_toNat]

/-! ## The payload loops -/

/-- The payload loop of BLD.WRREQ writes `FB` alone. -/
theorem putPayload_eq (n : Nat) (s : State) : putPayload n s = s.withFb (putPayload n s).fb := by
  induction n with
  | zero => rfl
  | succ n ih =>
    unfold putPayload
    rw [ih]
    rfl

@[simp] theorem putPayload_params (n : Nat) (s : State) : (putPayload n s).params = s.params := by
  rw [putPayload_eq]; rfl
@[simp] theorem putPayload_epoch (n : Nat) (s : State) : (putPayload n s).epoch = s.epoch := by
  rw [putPayload_eq]; rfl
@[simp] theorem putPayload_val (n : Nat) (s : State) : (putPayload n s).val = s.val := by
  rw [putPayload_eq]; rfl

@[simp] theorem getVal_putPayload (n : Nat) (s : State) (i : Nat) : getVal (putPayload n s) i = getVal s i :=
  getVal_congr (by simp) (by simp) i

theorem putPayload_succ (n : Nat) (s : State) :
    putPayload (n + 1) s = put16be (writePayloadOffset n) (getVal s n) (putPayload n s) := by
  rw [← getVal_putPayload n s n]; rfl

/-- The payload loop leaves every byte outside the payload alone. -/
theorem get8_putPayload_outside (n : Nat) (s : State) {j : Nat} (h : j < 7 ∨ 7 + 2 * n ≤ j) :
    get8 (putPayload n s) j = get8 s j := by
  induction n with
  | zero => rfl
  | succ n ih =>
    rw [putPayload_succ, get8_put16be, writePayloadOffset, if_neg (by omega), if_neg (by omega)]
    exact ih (by omega)

/-- Value `i` of the payload, high byte first. -/
theorem get8_putPayload_inside (n : Nat) (s : State) {i : Nat} (h : i < n) :
    get8 (putPayload n s) (7 + 2 * i) = hiByte (getVal s i) ∧
      get8 (putPayload n s) (8 + 2 * i) = loByte (getVal s i) := by
  induction n with
  | zero => omega
  | succ n ih =>
    rw [putPayload_succ, get8_put16be, get8_put16be, writePayloadOffset]
    by_cases hi : i = n
    · subst hi
      rw [if_neg (by omega), if_pos rfl, if_pos (by omega)]
      exact ⟨rfl, rfl⟩
    · rw [if_neg (by omega), if_neg (by omega), if_neg (by omega), if_neg (by omega)]
      exact ih (by omega)

/-- The payload loop of EXTRACT writes `VAL` alone. -/
theorem takePayload_eq (n : Nat) (s : State) : takePayload n s = s.withVal (takePayload n s).val := by
  induction n with
  | zero => rfl
  | succ n ih =>
    unfold takePayload
    rw [ih]
    rfl

@[simp] theorem takePayload_params (n : Nat) (s : State) : (takePayload n s).params = s.params := by
  rw [takePayload_eq]; rfl
@[simp] theorem takePayload_epoch (n : Nat) (s : State) : (takePayload n s).epoch = s.epoch := by
  rw [takePayload_eq]; rfl
@[simp] theorem takePayload_fb (n : Nat) (s : State) : (takePayload n s).fb = s.fb := by
  rw [takePayload_eq]; rfl

@[simp] theorem get8_takePayload (n : Nat) (s : State) (j : Nat) : get8 (takePayload n s) j = get8 s j :=
  get8_congr (by simp) (by simp) j

theorem takePayload_succ (n : Nat) (s : State) :
    takePayload (n + 1) s = putVal n (get16be s (readPayloadOffset n)) (takePayload n s) := by
  simp [takePayload, get16be]

/-- What EXTRACT's loop leaves in `VAL`. -/
theorem getVal_takePayload (n : Nat) (s : State) (i : Nat) :
    getVal (takePayload n s) i = if i < n then get16be s (readPayloadOffset i) else getVal s i := by
  induction n with
  | zero => rfl
  | succ n ih =>
    rw [takePayload_succ, getVal_putVal, ih]
    by_cases hi : i = n
    · subst hi; simp
    · by_cases h : i < n
      · rw [if_neg hi, if_pos h, if_pos (by omega)]
      · rw [if_neg hi, if_neg h, if_neg (by omega)]

/-! ## Which bytes are written -/

theorem read_put8 (off : Nat) (v : Byte) (s : State) (j : Nat) :
    Memory.read (put8 off v s).fb j = if j = off then some v else Memory.read s.fb j := by
  rw [put8_fb, Memory.read_store]

theorem read_put16be (off : Nat) (v : Word) (s : State) (j : Nat) :
    Memory.read (put16be off v s).fb j =
      if j = off + 1 then some (loByte v) else if j = off then some (hiByte v) else Memory.read s.fb j := by
  rw [put16be, read_put8, read_put8]

/-- `APPEND_CRC` writes exactly two bytes. -/
theorem read_appendCrc (len : Nat) (s : State) (j : Nat) :
    (j = len ∨ j = len + 1 → (Memory.read (appendCrc len s).fb j).isSome) ∧
      (j ≠ len → j ≠ len + 1 → Memory.read (appendCrc len s).fb j = Memory.read s.fb j) := by
  simp only [appendCrc, read_put8]
  constructor
  · rintro (h | h) <;> split_ifs <;> rfl
  · intro h1 h2; rw [if_neg h2, if_neg h1]

/-- The payload loop writes exactly the payload's bytes. -/
theorem read_putPayload (n : Nat) (s : State) (j : Nat) :
    (7 ≤ j → j < 7 + 2 * n → (Memory.read (putPayload n s).fb j).isSome) ∧
      (j < 7 ∨ 7 + 2 * n ≤ j → Memory.read (putPayload n s).fb j = Memory.read s.fb j) := by
  induction n with
  | zero => exact ⟨fun _ _ => by omega, fun _ => rfl⟩
  | succ n ih =>
    rw [putPayload_succ, read_put16be, writePayloadOffset]
    constructor
    · intro h1 h2
      split_ifs
      · rfl
      · rfl
      · exact ih.1 h1 (by omega)
    · intro h
      rw [if_neg (by omega), if_neg (by omega)]
      exact ih.2 (by omega)

/-! ## Canonical form -/

theorem put8_fb_wf {cap off : Nat} {v : Byte} {s : State} (h : Memory.wf cap s.fb) (ho : off < cap) :
    Memory.wf cap (put8 off v s).fb := Memory.store_wf h ho

theorem putVal_val_wf {cap i : Nat} {v : Word} {s : State} (h : Memory.wf cap s.val) (hi : i < cap) :
    Memory.wf cap (putVal i v s).val := Memory.store_wf h hi

theorem put16be_fb_wf {cap off : Nat} {v : Word} {s : State} (h : Memory.wf cap s.fb) (ho : off + 1 < cap) :
    Memory.wf cap (put16be off v s).fb := put8_fb_wf (put8_fb_wf h (by omega)) ho

theorem appendCrc_fb_wf {cap len : Nat} {s : State} (h : Memory.wf cap s.fb) (ho : len + 1 < cap) :
    Memory.wf cap (appendCrc len s).fb := put8_fb_wf (put8_fb_wf h (by omega)) ho

theorem putPayload_fb_wf {cap n : Nat} {s : State} (h : Memory.wf cap s.fb) (ho : 7 + 2 * n ≤ cap) :
    Memory.wf cap (putPayload n s).fb := by
  induction n with
  | zero => exact h
  | succ n ih =>
    rw [putPayload_succ]
    exact put16be_fb_wf (ih (by omega)) (by simp only [writePayloadOffset]; omega)

theorem takePayload_val_wf {cap n : Nat} {s : State} (h : Memory.wf cap s.val) (ho : n ≤ cap) :
    Memory.wf cap (takePayload n s).val := by
  induction n with
  | zero => exact h
  | succ n ih =>
    rw [takePayload_succ]
    exact putVal_val_wf (ih (by omega)) (by omega)

/-! ## How a command ends -/

@[simp] theorem finish_eq (s : State) : finish s = s.withResult (some .done) := rfl
@[simp] theorem returnLen_eq (v : Nat) (s : State) :
    returnLen v s = s.withResult (some (.len (BitVec.ofNat 18 v))) := rfl
@[simp] theorem returnOk_eq (b : Bool) (s : State) : returnOk b s = s.withResult (some (.ok b)) := rfl
@[simp] theorem raise_eq (f : CmdFault) (s : State) : raise f s = s.withResult (some (.fault f)) := rfl

@[simp] theorem get8_withResult (s : State) (r : Option Result) (j : Nat) : get8 (s.withResult r) j = get8 s j := rfl
@[simp] theorem getVal_withResult (s : State) (r : Option Result) (j : Nat) :
    getVal (s.withResult r) j = getVal s j := rfl

@[simp] theorem get8_withVal (s : State) (m : List (Nat × Word)) (j : Nat) : get8 (s.withVal m) j = get8 s j := rfl
@[simp] theorem get8_withSlaveId (s : State) (id : Byte) (j : Nat) : get8 (s.withSlaveId id) j = get8 s j := rfl
@[simp] theorem get8_withPending (s : State) (q : List HostAction) (j : Nat) :
    get8 (s.withPending q) j = get8 s j := rfl
@[simp] theorem get8_withHostRead (s : State) (d : Option HostRead) (j : Nat) :
    get8 (s.withHostRead d) j = get8 s j := rfl
@[simp] theorem getVal_withFb (s : State) (m : List Host.Cell) (j : Nat) : getVal (s.withFb m) j = getVal s j := rfl
@[simp] theorem getVal_withSlaveId (s : State) (id : Byte) (j : Nat) :
    getVal (s.withSlaveId id) j = getVal s j := rfl
@[simp] theorem getVal_withPending (s : State) (q : List HostAction) (j : Nat) :
    getVal (s.withPending q) j = getVal s j := rfl
@[simp] theorem getVal_withHostRead (s : State) (d : Option HostRead) (j : Nat) :
    getVal (s.withHostRead d) j = getVal s j := rfl

/-- The entries EXTRACT leaves, read from the state it ends in. -/
theorem getVal_withVal_takePayload (n : Nat) (s : State) (i : Nat) :
    getVal (s.withVal (takePayload n s).val) i = if i < n then get16be s (readPayloadOffset i) else getVal s i := by
  rw [← takePayload_eq, getVal_takePayload]

/-- A state that has taken another's bytes, and a result, reads as that other. -/
theorem get8_withFb_withResult {s u : State} (h : u = s.withFb u.fb) (r : Option Result) (j : Nat) :
    get8 ((s.withFb u.fb).withResult r) j = get8 u j := by
  rw [← h]; rfl

theorem frameBytes_withFb_withResult {s u : State} (h : u = s.withFb u.fb) (r : Option Result) (len : Nat) :
    frameBytes ((s.withFb u.fb).withResult r) len = frameBytes u len :=
  frameBytes_congr fun j _ => get8_withFb_withResult h r j

theorem validateCrc_withFb_withResult {s u : State} (h : u = s.withFb u.fb) (r : Option Result) (total : Nat) :
    validateCrc ((s.withFb u.fb).withResult r) total = validateCrc u total := by
  rw [← h]; rfl

end Sys2Proof.Machine
end

