-- ==== Sys2Proof/Laws/Construct.lean ====
section
/-! SUPPORT. Sys2Proof/Laws/Construct.lean: the frames the construct commands leave, as byte lists, and on what they and the
entries EXTRACT leaves depend. -/

namespace Sys2Proof.Machine

/-! ## The header -/

theorem putHeader_eq (bc : Bool) (fc : Byte) (ra rc : Word) (s : State) :
    putHeader bc fc ra rc s = s.withFb (putHeader bc fc ra rc s).fb := rfl

@[simp] theorem putHeader_params (bc : Bool) (fc : Byte) (ra rc : Word) (s : State) :
    (putHeader bc fc ra rc s).params = s.params := rfl

theorem get8_putHeader (bc : Bool) (fc : Byte) (ra rc : Word) (s : State) (j : Nat) :
    get8 (putHeader bc fc ra rc s) j =
      if j = 0 then addrSel s bc else if j = 1 then fc else if j = 2 then hiByte ra else if j = 3 then loByte ra
      else if j = 4 then hiByte rc else if j = 5 then loByte rc else get8 s j := by
  simp only [putHeader, get8_put16be, get8_put8]
  repeat' split
  all_goals first | rfl | omega

theorem frameBytes_putHeader (bc : Bool) (fc : Byte) (ra rc : Word) (s : State) :
    frameBytes (putHeader bc fc ra rc s) 6 = headerBytes (addrSel s bc) fc ra rc := by
  simp [frameBytes, List.range_succ, headerBytes, get8_putHeader]

/-! ## The payload -/

@[simp] theorem payloadBytes_length (vals : List Word) : (payloadBytes vals).length = 2 * vals.length := by
  induction vals with
  | nil => rfl
  | cons v vs ih => simp [payloadBytes, ih]; omega

theorem payloadBytes_append (us vs : List Word) : payloadBytes (us ++ vs) = payloadBytes us ++ payloadBytes vs := by
  induction us with
  | nil => rfl
  | cons u us ih => simp [payloadBytes, ih]

/-- Value `i` stands at bytes `2i` and `2i+1` of the payload, high byte first. -/
theorem payloadBytes_getElem (vals : List Word) (i : Nat) (h : i < vals.length) :
    (payloadBytes vals)[2 * i]? = some (hiByte vals[i]) ∧ (payloadBytes vals)[2 * i + 1]? = some (loByte vals[i]) := by
  induction vals generalizing i with
  | nil => simp at h
  | cons v vs ih =>
    cases i with
    | zero => simp [payloadBytes]
    | succ i =>
      have := ih i (by simpa using h)
      simpa [payloadBytes, Nat.mul_succ] using this

@[simp] theorem valEntries_length (s : State) (n : Nat) : (valEntries s n).length = n := by simp [valEntries]

theorem valEntries_succ (s : State) (n : Nat) : valEntries s (n + 1) = valEntries s n ++ [getVal s n] := by
  simp [valEntries, List.range_succ]

theorem valEntries_congr {s t : State} {n : Nat} (h : ∀ i < n, getVal t i = getVal s i) :
    valEntries t n = valEntries s n := by
  apply List.map_congr_left
  intro i hi
  exact h i (List.mem_range.1 hi)

/-- The payload loop appends the values to whatever the first seven bytes are. -/
theorem frameBytes_putPayload (n : Nat) (s : State) :
    frameBytes (putPayload n s) (7 + 2 * n) = frameBytes s 7 ++ payloadBytes (valEntries s n) := by
  induction n with
  | zero => simp [putPayload, valEntries, payloadBytes]
  | succ n ih =>
    have hlow : frameBytes (putPayload (n + 1) s) (7 + 2 * n) = frameBytes (putPayload n s) (7 + 2 * n) := by
      apply frameBytes_congr
      intro j hj
      rw [putPayload_succ, get8_put16be, writePayloadOffset, if_neg (by omega), if_neg (by omega)]
    have hin := get8_putPayload_inside (n + 1) s (i := n) (by omega)
    rw [show 7 + 2 * (n + 1) = 7 + 2 * n + 1 + 1 by omega, frameBytes_succ, frameBytes_succ, hlow, ih,
      valEntries_succ, payloadBytes_append, show 7 + 2 * n + 1 = 8 + 2 * n by omega, hin.1, hin.2]
    simp [payloadBytes]

/-! ## The whole frames -/

/-- The frame part of BLD.RDREQ as BLD.RDREQ writes it. -/
theorem execBldRdReq_eq (bc : Bool) (fc : Byte) (ra rc : Word) (s : State) :
    execBldRdReq bc fc ra rc s =
      .next ((s.withFb (appendCrc 6 (putHeader bc fc ra rc s)).fb).withResult (some .done)) := by
  have h := State.eq_withFb_trans (putHeader_eq bc fc ra rc s) (appendCrc_eq 6 (putHeader bc fc ra rc s))
  rw [execBldRdReq, finish_eq, readRequestLength, show (8 : Nat) - 2 = 6 from rfl, ← h]

theorem frameBytes_readRequest (bc : Bool) (fc : Byte) (ra rc : Word) (s : State) :
    frameBytes (appendCrc 6 (putHeader bc fc ra rc s)) 8 =
      readRequestFrame s.params (addrSel s bc) fc ra rc := by
  rw [show (8 : Nat) = 6 + 2 from rfl, frameBytes_appendCrc_trailer, frameBytes_putHeader, putHeader_params,
    readRequestFrame]

theorem get8_readRequest_outside (bc : Bool) (fc : Byte) (ra rc : Word) (s : State) {j : Nat} (h : 8 ≤ j) :
    get8 (appendCrc 6 (putHeader bc fc ra rc s)) j = get8 s j := by
  rw [get8_appendCrc, if_neg (by omega), if_neg (by omega), get8_putHeader]
  repeat rw [if_neg (by omega)]

theorem buildWriteRequest_eq (bc : Bool) (fc : Byte) (ra rc : Word) (s : State) :
    buildWriteRequest bc fc ra rc s = s.withFb (buildWriteRequest bc fc ra rc s).fb := by
  unfold buildWriteRequest
  exact State.eq_withFb_trans
    (State.eq_withFb_trans (State.eq_withFb_trans (putHeader_eq bc fc ra rc s) (put8_eq ..)) (putPayload_eq ..))
    (appendCrc_eq ..)

/-- The bytes before the trailer of a write request, in `FB` when `APPEND_CRC` starts. -/
theorem frameBytes_beforeTrailer (bc : Bool) (fc : Byte) (ra rc : Word) (s : State) :
    frameBytes (putPayload rc.toNat (put8 6 (payloadByteCount rc.toNat) (putHeader bc fc ra rc s)))
        (7 + 2 * rc.toNat) =
      headerBytes (addrSel s bc) fc ra rc ++
        payloadByteCount rc.toNat :: payloadBytes (valEntries s rc.toNat) := by
  have hv : valEntries (put8 6 (payloadByteCount rc.toNat) (putHeader bc fc ra rc s)) rc.toNat =
      valEntries s rc.toNat := valEntries_congr fun i _ => rfl
  have h6 : frameBytes (put8 6 (payloadByteCount rc.toNat) (putHeader bc fc ra rc s)) 6 =
      headerBytes (addrSel s bc) fc ra rc := by
    rw [← frameBytes_putHeader]
    apply frameBytes_congr
    intro j hj
    rw [get8_put8, if_neg (by omega)]
  rw [frameBytes_putPayload, hv, frameBytes_succ, h6, get8_put8, if_pos rfl]
  simp

theorem frameBytes_writeRequest (bc : Bool) (fc : Byte) (ra rc : Word) (s : State) :
    frameBytes (buildWriteRequest bc fc ra rc s) (9 + 2 * rc.toNat) =
      writeRequestFrame s.params (addrSel s bc) fc ra rc (valEntries s rc.toNat) := by
  unfold buildWriteRequest
  rw [writeRequestLength, show 9 + 2 * rc.toNat - 2 = 7 + 2 * rc.toNat by omega,
    show 9 + 2 * rc.toNat = 7 + 2 * rc.toNat + 2 by omega, frameBytes_appendCrc_trailer, frameBytes_beforeTrailer]
  simp only [writeRequestFrame, putPayload_params, put8_params, putHeader_params]

theorem get8_writeRequest_outside (bc : Bool) (fc : Byte) (ra rc : Word) (s : State) {j : Nat}
    (h : 9 + 2 * rc.toNat ≤ j) : get8 (buildWriteRequest bc fc ra rc s) j = get8 s j := by
  unfold buildWriteRequest
  rw [writeRequestLength, get8_appendCrc, if_neg (by omega), if_neg (by omega),
    get8_putPayload_outside _ _ (by omega), get8_put8, if_neg (by omega), get8_putHeader]
  repeat rw [if_neg (by omega)]

theorem readRequest_eq (bc : Bool) (fc : Byte) (ra rc : Word) (s : State) :
    appendCrc 6 (putHeader bc fc ra rc s) = s.withFb (appendCrc 6 (putHeader bc fc ra rc s)).fb :=
  State.eq_withFb_trans (putHeader_eq bc fc ra rc s) (appendCrc_eq 6 _)

/-! ## Which bytes are written -/

theorem read_putHeader (bc : Bool) (fc : Byte) (ra rc : Word) (s : State) (j : Nat) :
    (j < 6 → (Memory.read (putHeader bc fc ra rc s).fb j).isSome) ∧
      (6 ≤ j → Memory.read (putHeader bc fc ra rc s).fb j = Memory.read s.fb j) := by
  simp only [putHeader, read_put16be, read_put8]
  constructor <;> intro h <;> split_ifs <;> first | rfl | omega

/-- BLD.RDREQ writes exactly the offsets below 8. -/
theorem read_readRequest (bc : Bool) (fc : Byte) (ra rc : Word) (s : State) (j : Nat) :
    (j < 8 → (Memory.read (appendCrc 6 (putHeader bc fc ra rc s)).fb j).isSome) ∧
      (8 ≤ j → Memory.read (appendCrc 6 (putHeader bc fc ra rc s)).fb j = Memory.read s.fb j) := by
  have h1 := read_appendCrc 6 (putHeader bc fc ra rc s) j
  have h2 := read_putHeader bc fc ra rc s j
  constructor
  · intro h
    by_cases h6 : j = 6 ∨ j = 6 + 1
    · exact h1.1 h6
    · rw [h1.2 (by omega) (by omega)]; exact h2.1 (by omega)
  · intro h
    rw [h1.2 (by omega) (by omega), h2.2 (by omega)]

/-- The frame of BLD.WRREQ is exactly the offsets below `9 + 2n`. -/
theorem read_writeRequest (bc : Bool) (fc : Byte) (ra rc : Word) (s : State) (j : Nat) :
    (j < 9 + 2 * rc.toNat → (Memory.read (buildWriteRequest bc fc ra rc s).fb j).isSome) ∧
      (9 + 2 * rc.toNat ≤ j → Memory.read (buildWriteRequest bc fc ra rc s).fb j = Memory.read s.fb j) := by
  unfold buildWriteRequest
  rw [writeRequestLength, show 9 + 2 * rc.toNat - 2 = 7 + 2 * rc.toNat by omega]
  have h1 := read_appendCrc (7 + 2 * rc.toNat)
    (putPayload rc.toNat (put8 6 (payloadByteCount rc.toNat) (putHeader bc fc ra rc s))) j
  have h2 := read_putPayload rc.toNat (put8 6 (payloadByteCount rc.toNat) (putHeader bc fc ra rc s)) j
  have h3 := read_put8 6 (payloadByteCount rc.toNat) (putHeader bc fc ra rc s) j
  have h4 := read_putHeader bc fc ra rc s j
  constructor
  · intro h
    by_cases h6 : j = 7 + 2 * rc.toNat ∨ j = 7 + 2 * rc.toNat + 1
    · exact h1.1 h6
    · rw [h1.2 (by omega) (by omega)]
      by_cases h7 : j < 7
      · rw [h2.2 (by omega), h3]
        split
        · rfl
        · exact h4.1 (by omega)
      · exact h2.1 (by omega) (by omega)
  · intro h
    rw [h1.2 (by omega) (by omega), h2.2 (by omega), h3, if_neg (by omega), h4.2 (by omega)]

/-- The bytes of a write request before its trailer, one at a time. -/
theorem get8_writeRequest_header (bc : Bool) (fc : Byte) (ra rc : Word) (s : State) {j : Nat} (h : j < 7) :
    get8 (buildWriteRequest bc fc ra rc s) j =
      get8 (put8 6 (payloadByteCount rc.toNat) (putHeader bc fc ra rc s)) j := by
  unfold buildWriteRequest
  rw [writeRequestLength, get8_appendCrc, if_neg (by omega), if_neg (by omega), get8_putPayload_outside _ _ (by omega)]

theorem get8_writeRequest_payload (bc : Bool) (fc : Byte) (ra rc : Word) (s : State) {i : Nat} (h : i < rc.toNat) :
    get8 (buildWriteRequest bc fc ra rc s) (7 + 2 * i) = hiByte (getVal s i) ∧
      get8 (buildWriteRequest bc fc ra rc s) (8 + 2 * i) = loByte (getVal s i) := by
  have h2 := get8_putPayload_inside rc.toNat (put8 6 (payloadByteCount rc.toNat) (putHeader bc fc ra rc s)) h
  unfold buildWriteRequest
  rw [writeRequestLength, get8_appendCrc, get8_appendCrc, if_neg (by omega), if_neg (by omega), if_neg (by omega),
    if_neg (by omega), h2.1, h2.2]
  exact ⟨rfl, rfl⟩

theorem get8_writeRequest_trailer (bc : Bool) (fc : Byte) (ra rc : Word) (s : State) :
    get8 (buildWriteRequest bc fc ra rc s) (7 + 2 * rc.toNat) =
        trailerFirst s.params (crc16 (frameBytes (buildWriteRequest bc fc ra rc s) (7 + 2 * rc.toNat))) ∧
      get8 (buildWriteRequest bc fc ra rc s) (8 + 2 * rc.toNat) =
        trailerSecond s.params (crc16 (frameBytes (buildWriteRequest bc fc ra rc s) (7 + 2 * rc.toNat))) := by
  unfold buildWriteRequest
  rw [writeRequestLength, show 9 + 2 * rc.toNat - 2 = 7 + 2 * rc.toNat by omega, frameBytes_appendCrc,
    get8_appendCrc, get8_appendCrc, if_neg (by omega), if_pos rfl, if_pos (by omega)]
  simp only [putPayload_params, put8_params, putHeader_params, and_self]

/-! ## On what the stored bytes and entries depend -/

theorem put8_fb_congr {s t : State} (off : Nat) {u v : Byte} (hf : t.fb = s.fb) (h : u = v) :
    (put8 off u t).fb = (put8 off v s).fb := by
  simp [hf, h]

theorem putHeader_fb_congr {s t : State} {bc bc' : Bool} (fc : Byte) (ra rc : Word) (hf : t.fb = s.fb)
    (ha : addrSel t bc' = addrSel s bc) : (putHeader bc' fc ra rc t).fb = (putHeader bc fc ra rc s).fb := by
  simp [putHeader, put16be, hf, ha]

theorem putPayload_fb_congr {s t : State} {n : Nat} (hf : t.fb = s.fb) (hv : ∀ i < n, getVal t i = getVal s i) :
    (putPayload n t).fb = (putPayload n s).fb := by
  induction n with
  | zero => exact hf
  | succ n ih =>
    rw [putPayload_succ, putPayload_succ, hv n (by omega)]
    simp [put16be, ih fun i hi => hv i (by omega)]

theorem appendCrc_fb_congr {s t : State} {len : Nat} (hf : t.fb = s.fb) (hp : t.params = s.params)
    (hb : frameBytes t len = frameBytes s len) : (appendCrc len t).fb = (appendCrc len s).fb := by
  simp [appendCrc, hf, hp, hb]

/-- The frame BLD.RDREQ leaves depends on the old bytes, the parameters and the selected identity alone. -/
theorem readRequest_fb_congr {s t : State} {bc bc' : Bool} (fc : Byte) (ra rc : Word) (hf : t.fb = s.fb)
    (hp : t.params = s.params) (ha : addrSel t bc' = addrSel s bc) :
    (appendCrc 6 (putHeader bc' fc ra rc t)).fb = (appendCrc 6 (putHeader bc fc ra rc s)).fb := by
  apply appendCrc_fb_congr (putHeader_fb_congr fc ra rc hf ha) hp
  rw [frameBytes_putHeader, frameBytes_putHeader, ha]

/-- The frame BLD.WRREQ leaves depends on the old bytes, the parameters, the selected identity and the first `n`
entries alone. -/
theorem buildWriteRequest_fb_congr {s t : State} {bc bc' : Bool} (fc : Byte) (ra rc : Word) (hf : t.fb = s.fb)
    (hp : t.params = s.params) (ha : addrSel t bc' = addrSel s bc)
    (hv : ∀ i < rc.toNat, getVal t i = getVal s i) :
    (buildWriteRequest bc' fc ra rc t).fb = (buildWriteRequest bc fc ra rc s).fb := by
  unfold buildWriteRequest
  apply appendCrc_fb_congr
  · exact putPayload_fb_congr (put8_fb_congr 6 (putHeader_fb_congr fc ra rc hf ha) rfl) hv
  · simp only [putPayload_params, put8_params]; exact hp
  · rw [writeRequestLength, show 9 + 2 * rc.toNat - 2 = 7 + 2 * rc.toNat by omega, frameBytes_beforeTrailer,
      frameBytes_beforeTrailer, ha, valEntries_congr hv]

theorem get16be_congr {s t : State} {off : Nat} (h0 : get8 t off = get8 s off)
    (h1 : get8 t (off + 1) = get8 s (off + 1)) : get16be t off = get16be s off := by
  simp [get16be, h0, h1]

/-- The entries EXTRACT leaves depend on the old entries and the payload bytes alone. -/
theorem takePayload_val_congr {s t : State} {n : Nat} (hv : t.val = s.val)
    (hb : ∀ j, 3 ≤ j → j < 3 + 2 * n → get8 t j = get8 s j) : (takePayload n t).val = (takePayload n s).val := by
  induction n with
  | zero => exact hv
  | succ n ih =>
    rw [takePayload_succ, takePayload_succ]
    have h16 : get16be t (readPayloadOffset n) = get16be s (readPayloadOffset n) :=
      get16be_congr (hb _ (by simp only [readPayloadOffset]; omega) (by simp only [readPayloadOffset]; omega))
        (hb _ (by simp only [readPayloadOffset]; omega) (by simp only [readPayloadOffset]; omega))
    simp [h16, ih fun j h1 h2 => hb j h1 (by omega)]

end Sys2Proof.Machine
end

