-- ==== Sys2Proof/Laws/Decode.lean ====
section
/-! SUPPORT. Sys2Proof/Laws/Decode.lean: the fields of a command word as numbers, and the fields of an encoded word. -/

namespace Sys2Proof

/-! ## The fields as numbers (R55) -/

theorem opField_toNat (w : CmdWord) : (opField w).toNat = w.toNat / 2 ^ 44 % 16 := by
  simp [opField, BitVec.extractLsb'_toNat, Nat.shiftRight_eq_div_pow]

theorem zField_toNat (w : CmdWord) : (zField w).toNat = w.toNat / 2 ^ 40 % 8 := by
  simp [zField, BitVec.extractLsb'_toNat, Nat.shiftRight_eq_div_pow]

theorem bcField_toNat (w : CmdWord) : (bcField w).toNat = w.toNat / 2 ^ 43 % 2 := by
  simp [bcField, BitVec.getLsbD, Nat.toNat_testBit]

theorem fcField_toNat (w : CmdWord) : (fcField w).toNat = w.toNat / 2 ^ 32 % 256 := by
  simp [fcField, BitVec.extractLsb'_toNat, Nat.shiftRight_eq_div_pow]

theorem raField_toNat (w : CmdWord) : (raField w).toNat = w.toNat / 2 ^ 16 % 65536 := by
  simp [raField, BitVec.extractLsb'_toNat, Nat.shiftRight_eq_div_pow]

theorem rcField_toNat (w : CmdWord) : (rcField w).toNat = w.toNat % 65536 := by
  simp [rcField, BitVec.extractLsb'_toNat]

/-! ## The fields of an encoded word -/

theorem commandWord_toNat {op : Nat} (hop : op < 16) (bc : Bool) (fc : Byte) (ra rc : Word) :
    (commandWord op bc fc ra rc).toNat =
      op * 2 ^ 44 + bc.toNat * 2 ^ 43 + fc.toNat * 2 ^ 32 + ra.toNat * 2 ^ 16 + rc.toNat := by
  have hfc := fc.isLt; have hra := ra.isLt; have hrc := rc.isLt; have hbc := bc.toNat_le
  rw [commandWord, BitVec.toNat_ofNat, Nat.mod_eq_of_lt]
  omega

theorem opField_commandWord {op : Nat} (hop : op < 16) (bc : Bool) (fc : Byte) (ra rc : Word) :
    (opField (commandWord op bc fc ra rc)).toNat = op := by
  have hfc := fc.isLt; have hra := ra.isLt; have hrc := rc.isLt; have hbc := bc.toNat_le
  rw [opField_toNat, commandWord_toNat hop]
  omega

theorem zField_commandWord {op : Nat} (hop : op < 16) (bc : Bool) (fc : Byte) (ra rc : Word) :
    zField (commandWord op bc fc ra rc) = 0 := by
  have hfc := fc.isLt; have hra := ra.isLt; have hrc := rc.isLt; have hbc := bc.toNat_le
  apply BitVec.eq_of_toNat_eq
  rw [zField_toNat, commandWord_toNat hop]
  change _ = 0
  omega

theorem bcField_commandWord {op : Nat} (hop : op < 16) (bc : Bool) (fc : Byte) (ra rc : Word) :
    bcField (commandWord op bc fc ra rc) = bc := by
  have hfc := fc.isLt; have hra := ra.isLt; have hrc := rc.isLt; have hbc := bc.toNat_le
  have h : (bcField (commandWord op bc fc ra rc)).toNat = bc.toNat := by
    rw [bcField_toNat, commandWord_toNat hop]
    omega
  cases bc <;> cases hb : bcField (commandWord op _ fc ra rc) <;> simp_all

theorem fcField_commandWord {op : Nat} (hop : op < 16) (bc : Bool) (fc : Byte) (ra rc : Word) :
    fcField (commandWord op bc fc ra rc) = fc := by
  have hfc := fc.isLt; have hra := ra.isLt; have hrc := rc.isLt; have hbc := bc.toNat_le
  apply BitVec.eq_of_toNat_eq
  rw [fcField_toNat, commandWord_toNat hop]
  omega

theorem raField_commandWord {op : Nat} (hop : op < 16) (bc : Bool) (fc : Byte) (ra rc : Word) :
    raField (commandWord op bc fc ra rc) = ra := by
  have hfc := fc.isLt; have hra := ra.isLt; have hrc := rc.isLt; have hbc := bc.toNat_le
  apply BitVec.eq_of_toNat_eq
  rw [raField_toNat, commandWord_toNat hop]
  omega

theorem rcField_commandWord {op : Nat} (hop : op < 16) (bc : Bool) (fc : Byte) (ra rc : Word) :
    rcField (commandWord op bc fc ra rc) = rc := by
  have hfc := fc.isLt; have hra := ra.isLt; have hrc := rc.isLt; have hbc := bc.toNat_le
  apply BitVec.eq_of_toNat_eq
  rw [rcField_toNat, commandWord_toNat hop]
  omega

/-! ## A command word under a mask of whole fields -/

/-- A bitwise AND, cut at bit `s`. -/
theorem and_cut (n A b s : Nat) (hb : b < 2 ^ s) :
    n &&& (2 ^ s * A + b) = 2 ^ s * (n / 2 ^ s &&& A) + (n % 2 ^ s &&& b) := by
  have hlt : n % 2 ^ s &&& b < 2 ^ s := lt_of_le_of_lt Nat.and_le_right hb
  apply Nat.eq_of_testBit_eq
  intro i
  rw [Nat.testBit_and, Nat.testBit_two_pow_mul_add _ hb, Nat.testBit_two_pow_mul_add _ hlt]
  split
  · rename_i h; simp [Nat.testBit_mod_two_pow, h]
  · rename_i h
    rw [Nat.testBit_and, Nat.testBit_div_two_pow, show i - s + s = i by omega]

/-- A bitwise AND of a number with the six fields of a command word. -/
theorem and_sixFields (n op b z f a r : Nat) (hb : b < 2 ^ 1) (hz : z < 2 ^ 3) (hf : f < 2 ^ 8) (ha : a < 2 ^ 16)
    (hr : r < 2 ^ 16) :
    n &&& (2 ^ 16 * (2 ^ 16 * (2 ^ 8 * (2 ^ 3 * (2 ^ 1 * op + b) + z) + f) + a) + r) =
      2 ^ 16 * (2 ^ 16 * (2 ^ 8 * (2 ^ 3 * (2 ^ 1 * (n / 2 ^ 44 &&& op) + (n / 2 ^ 43 % 2 ^ 1 &&& b)) +
        (n / 2 ^ 40 % 2 ^ 3 &&& z)) + (n / 2 ^ 32 % 2 ^ 8 &&& f)) + (n / 2 ^ 16 % 2 ^ 16 &&& a)) +
        (n % 2 ^ 16 &&& r) := by
  rw [and_cut n _ r 16 hr, and_cut (n / 2 ^ 16) _ a 16 ha, and_cut (n / 2 ^ 16 / 2 ^ 16) _ f 8 hf,
    and_cut (n / 2 ^ 16 / 2 ^ 16 / 2 ^ 8) _ z 3 hz, and_cut (n / 2 ^ 16 / 2 ^ 16 / 2 ^ 8 / 2 ^ 3) op b 1 hb]
  simp only [Nat.div_div_eq_div_mul, ← Nat.pow_add]

/-- A field under a mask of all ones or none. -/
theorem and_ones (m k : Nat) (x : Bool) : m % 2 ^ k &&& x.toNat * (2 ^ k - 1) = x.toNat * (m % 2 ^ k) := by
  cases x
  · simp
  · simp [Nat.and_two_pow_sub_one_eq_mod]

/-- The mask that keeps `op` and `z`, and each operand field whole or not at all. -/
def fieldMask (b f a r : Bool) : CmdWord :=
  BitVec.ofNat 48 (2 ^ 16 * (2 ^ 16 * (2 ^ 8 * (2 ^ 3 * (2 ^ 1 * (2 ^ 4 - 1) + b.toNat * (2 ^ 1 - 1)) +
    true.toNat * (2 ^ 3 - 1)) + f.toNat * (2 ^ 8 - 1)) + a.toNat * (2 ^ 16 - 1)) + r.toNat * (2 ^ 16 - 1))

/-- A command word under such a mask: the kept fields, in their places. -/
theorem and_fieldMask_toNat (w : CmdWord) (b f a r : Bool) :
    (w &&& fieldMask b f a r).toNat =
      (opField w).toNat * 2 ^ 44 + b.toNat * (bcField w).toNat * 2 ^ 43 + (zField w).toNat * 2 ^ 40 +
        f.toNat * (fcField w).toNat * 2 ^ 32 + a.toNat * (raField w).toNat * 2 ^ 16 +
        r.toNat * (rcField w).toNat := by
  have hlt : ∀ (x : Bool) (k : Nat), x.toNat * (2 ^ k - 1) < 2 ^ k := by
    intro x k
    have := Nat.two_pow_pos k
    cases x <;> simp
  rw [opField_toNat, bcField_toNat, zField_toNat, fcField_toNat, raField_toNat, rcField_toNat, BitVec.toNat_and,
    fieldMask, BitVec.toNat_ofNat, Nat.mod_eq_of_lt (by
      have h1 := hlt b 1; have h3 := hlt true 3; have h8 := hlt f 8; have h16 := hlt a 16; have h0 := hlt r 16
      omega),
    and_sixFields _ _ _ _ _ _ _ (hlt b 1) (hlt true 3) (hlt f 8) (hlt a 16) (hlt r 16),
    and_ones, and_ones, and_ones, and_ones, and_ones, Nat.and_two_pow_sub_one_eq_mod]
  have hw := w.isLt
  generalize w.toNat = n at *
  simp only [Bool.toNat_true]
  cases b <;> cases f <;> cases a <;> cases r <;> simp only [Bool.toNat_true, Bool.toNat_false] <;> omega

/-- Which operand fields a mnemonic keeps, as flags for `bc`, `fc`, `ra`, `rc` (R56). -/
theorem usedMask_eq (m : Mnemonic) :
    m.usedMask = match m with
      | .lenRdReq => fieldMask false false false false
      | .lenRdRsp => fieldMask false false false true
      | .lenWrReq => fieldMask false false false true
      | .lenWrRsp => fieldMask false false false false
      | .bldRdReq => fieldMask true true true true
      | .bldWrReq => fieldMask true true true true
      | .valWrRsp => fieldMask true true true true
      | .valRdRsp => fieldMask true true false true
      | .extract => fieldMask false false false true
      | .setSlave => fieldMask false true false false := by
  cases m <;> decide

theorem opcodeMask_eq : opcodeMask = fieldMask false false false false := by decide

/-- A command word under the mask of every row of the opcode map. -/
theorem and_opcodeMask_toNat (w : CmdWord) :
    (w &&& opcodeMask).toNat = (opField w).toNat * 2 ^ 44 + (zField w).toNat * 2 ^ 40 := by
  rw [opcodeMask_eq, and_fieldMask_toNat]
  simp

/-! ## What the decoder answers -/

/-- The one inversion of `decode`: the word has `z` zero, and its `op` is the code of the instruction's row with the
operand fields as the instruction's operands. -/
theorem decode_ok_iff (w : CmdWord) (i : Instr) :
    decode w = .ok i ↔ zField w = 0 ∧
      (((opField w).toNat = 1 ∧ i = .lenRdReq) ∨
       ((opField w).toNat = 2 ∧ i = .lenRdRsp (rcField w)) ∨
       ((opField w).toNat = 3 ∧ i = .lenWrReq (rcField w)) ∨
       ((opField w).toNat = 4 ∧ i = .lenWrRsp) ∨
       ((opField w).toNat = 5 ∧ i = .bldRdReq (bcField w) (fcField w) (raField w) (rcField w)) ∨
       ((opField w).toNat = 6 ∧ i = .bldWrReq (bcField w) (fcField w) (raField w) (rcField w)) ∨
       ((opField w).toNat = 7 ∧ i = .valWrRsp (bcField w) (fcField w) (raField w) (rcField w)) ∨
       ((opField w).toNat = 8 ∧ i = .valRdRsp (bcField w) (fcField w) (rcField w)) ∨
       ((opField w).toNat = 9 ∧ i = .extract (rcField w)) ∨
       ((opField w).toNat = 10 ∧ i = .setSlave (fcField w))) := by
  unfold decode
  split
  · simp_all
  · rename_i hz
    rw [not_not] at hz
    generalize (opField w).toNat = n
    split <;> simp_all <;> exact eq_comm

/-- A decoded word has `op` 1 to 10 and `z` zero, and such a word decodes. -/
theorem decode_isOk_iff (w : CmdWord) :
    (∃ i, decode w = .ok i) ↔ zField w = 0 ∧ 1 ≤ (opField w).toNat ∧ (opField w).toNat ≤ 10 := by
  constructor
  · rintro ⟨i, h⟩
    rw [decode_ok_iff] at h
    refine ⟨h.1, ?_⟩
    rcases h.2 with h | h | h | h | h | h | h | h | h | h <;> (have := h.1; omega)
  · rintro ⟨hz, h1, h2⟩
    simp only [decode_ok_iff, hz, true_and]
    have : (opField w).toNat = 1 ∨ (opField w).toNat = 2 ∨ (opField w).toNat = 3 ∨ (opField w).toNat = 4 ∨
        (opField w).toNat = 5 ∨ (opField w).toNat = 6 ∨ (opField w).toNat = 7 ∨ (opField w).toNat = 8 ∨
        (opField w).toNat = 9 ∨ (opField w).toNat = 10 := by omega
    rcases this with h | h | h | h | h | h | h | h | h | h <;> simp [h]

end Sys2Proof
end

