-- ==== Sys2Proof/Laws/Step.lean ====
section
/-! SUPPORT. Sys2Proof/Laws/Step.lean: everything a command and a step can do, said once; later proofs cite these. -/

namespace Sys2Proof.Machine

/-! ## Command words -/

theorem runCommand_ok {w : CmdWord} {i : Instr} (h : decode w = .ok i) (s : State) : runCommand w s = exec i s := by
  simp [runCommand, h]

theorem runCommand_error {w : CmdWord} {e : DecodeError} (h : decode w = .error e) (s : State) :
    runCommand w s = .next (s.withResult (some (.fault .illegalCmd))) := by
  simp [runCommand, h]

theorem decode_nonzeroZ {w : CmdWord} (h : zField w ≠ 0) : decode w = .error .nonzeroZ := by
  rw [decode, if_pos h]

/-! ## The commands that can fault, case by case -/

theorem execBldWrReq_frameOverrun (bc : Bool) (fc : Byte) (ra : Word) {rc : Word} {s : State}
    (h : s.params.fbCap < 9 + 2 * rc.toNat) :
    execBldWrReq bc fc ra rc s = .next (s.withResult (some (.fault .frameOverrun))) := by
  rw [execBldWrReq, if_pos (show s.params.fbCap < writeRequestLength rc.toNat from h), raise_eq]

theorem execBldWrReq_valueOverrun (bc : Bool) (fc : Byte) (ra : Word) {rc : Word} {s : State}
    (hf : ¬ s.params.fbCap < 9 + 2 * rc.toNat) (hv : s.params.valCap < rc.toNat) :
    execBldWrReq bc fc ra rc s = .next (s.withResult (some (.fault .valueOverrun))) := by
  rw [execBldWrReq, if_neg (show ¬ s.params.fbCap < writeRequestLength rc.toNat from hf), if_pos hv, raise_eq]

theorem execBldWrReq_fits (bc : Bool) (fc : Byte) (ra : Word) {rc : Word} {s : State}
    (hf : ¬ s.params.fbCap < 9 + 2 * rc.toNat) (hv : ¬ s.params.valCap < rc.toNat) :
    execBldWrReq bc fc ra rc s =
      .next ((s.withFb (buildWriteRequest bc fc ra rc s).fb).withResult (some .done)) := by
  rw [execBldWrReq, if_neg (show ¬ s.params.fbCap < writeRequestLength rc.toNat from hf), if_neg hv, finish_eq,
    ← buildWriteRequest_eq]

theorem execExtract_frameOverrun {rc : Word} {s : State} (h : s.params.fbCap < 3 + 2 * rc.toNat) :
    execExtract rc s = .next (s.withResult (some (.fault .frameOverrun))) := by
  rw [execExtract, if_pos (show s.params.fbCap < extractSpan rc.toNat from h), raise_eq]

theorem execExtract_valueOverrun {rc : Word} {s : State} (hf : ¬ s.params.fbCap < 3 + 2 * rc.toNat)
    (hv : s.params.valCap < rc.toNat) :
    execExtract rc s = .next (s.withResult (some (.fault .valueOverrun))) := by
  rw [execExtract, if_neg (show ¬ s.params.fbCap < extractSpan rc.toNat from hf), if_pos hv, raise_eq]

theorem execExtract_fits {rc : Word} {s : State} (hf : ¬ s.params.fbCap < 3 + 2 * rc.toNat)
    (hv : ¬ s.params.valCap < rc.toNat) :
    execExtract rc s = .next ((s.withVal (takePayload rc.toNat s).val).withResult (some .done)) := by
  rw [execExtract, if_neg (show ¬ s.params.fbCap < extractSpan rc.toNat from hf), if_neg hv, finish_eq,
    ← takePayload_eq]

/-- Checks 1 to 3 of VAL.RDRSP (R95). -/
abbrev readResponsePrefixOk (bc : Bool) (fc : Byte) (rc : Word) (s : State) : Prop :=
  get8 s 0 = addrSel s bc ∧ get8 s 1 = fc ∧ (get8 s 2).toNat = 2 * rc.toNat

theorem execValRdRsp_prefix {bc : Bool} {fc : Byte} {rc : Word} {s : State}
    (h : ¬ readResponsePrefixOk bc fc rc s) :
    execValRdRsp bc fc rc s = .next (s.withResult (some (.ok false))) := by
  rw [execValRdRsp]
  by_cases h0 : get8 s 0 = addrSel s bc
  · by_cases h1 : get8 s 1 = fc
    · have h2 : (get8 s 2).toNat ≠ 2 * rc.toNat := fun h2 => h ⟨h0, h1, h2⟩
      rw [if_neg (not_not.2 h0), if_neg (not_not.2 h1), if_pos h2, returnOk_eq]
    · rw [if_neg (not_not.2 h0), if_pos h1, returnOk_eq]
  · rw [if_pos h0, returnOk_eq]

theorem execValRdRsp_frameOverrun {bc : Bool} {fc : Byte} {rc : Word} {s : State}
    (h : readResponsePrefixOk bc fc rc s) (hf : s.params.fbCap < 5 + 2 * rc.toNat) :
    execValRdRsp bc fc rc s = .next (s.withResult (some (.fault .frameOverrun))) := by
  rw [execValRdRsp, if_neg (not_not.2 h.1), if_neg (not_not.2 h.2.1), if_neg (not_not.2 h.2.2),
    if_pos (show s.params.fbCap < readResponseLength rc.toNat from hf), raise_eq]

theorem execValRdRsp_crc {bc : Bool} {fc : Byte} {rc : Word} {s : State}
    (h : readResponsePrefixOk bc fc rc s) (hf : ¬ s.params.fbCap < 5 + 2 * rc.toNat) :
    execValRdRsp bc fc rc s = .next (s.withResult (some (.ok (validateCrc s (5 + 2 * rc.toNat))))) := by
  rw [execValRdRsp, if_neg (not_not.2 h.1), if_neg (not_not.2 h.2.1), if_neg (not_not.2 h.2.2),
    if_neg (show ¬ s.params.fbCap < readResponseLength rc.toNat from hf)]
  change Host.Outcome.next (if validateCrc s (5 + 2 * rc.toNat) ≠ true then _ else _) = _
  cases validateCrc s (5 + 2 * rc.toNat)
  · rw [if_pos (by decide), returnOk_eq]
  · rw [if_neg (by decide), returnOk_eq]

/-- Checks 1 to 4 of VAL.WRRSP (R93). -/
abbrev writeResponseHeaderOk (bc : Bool) (fc : Byte) (ra rc : Word) (s : State) : Prop :=
  get8 s 0 = addrSel s bc ∧ get8 s 1 = fc ∧ get16be s 2 = ra ∧ get16be s 4 = rc

theorem execValWrRsp_header {bc : Bool} {fc : Byte} {ra rc : Word} {s : State}
    (h : ¬ writeResponseHeaderOk bc fc ra rc s) :
    execValWrRsp bc fc ra rc s = .next (s.withResult (some (.ok false))) := by
  rw [execValWrRsp]
  by_cases h0 : get8 s 0 = addrSel s bc
  · by_cases h1 : get8 s 1 = fc
    · by_cases h2 : get16be s 2 = ra
      · have h3 : get16be s 4 ≠ rc := fun h3 => h ⟨h0, h1, h2, h3⟩
        rw [if_neg (not_not.2 h0), if_neg (not_not.2 h1), if_neg (not_not.2 h2), if_pos h3, returnOk_eq]
      · rw [if_neg (not_not.2 h0), if_neg (not_not.2 h1), if_pos h2, returnOk_eq]
    · rw [if_neg (not_not.2 h0), if_pos h1, returnOk_eq]
  · rw [if_pos h0, returnOk_eq]

theorem execValWrRsp_crc {bc : Bool} {fc : Byte} {ra rc : Word} {s : State}
    (h : writeResponseHeaderOk bc fc ra rc s) :
    execValWrRsp bc fc ra rc s = .next (s.withResult (some (.ok (validateCrc s 8)))) := by
  rw [execValWrRsp, if_neg (not_not.2 h.1), if_neg (not_not.2 h.2.1), if_neg (not_not.2 h.2.2.1),
    if_neg (not_not.2 h.2.2.2)]
  change Host.Outcome.next (if validateCrc s 8 ≠ true then _ else _) = _
  cases validateCrc s 8
  · rw [if_pos (by decide), returnOk_eq]
  · rw [if_neg (by decide), returnOk_eq]

/-! ## What a command can do -/

/-- A command returns a result and touches nothing else; or it is a construct command that fits and writes its frame; or
an EXTRACT that fits and writes its entries; or SET.SLAVE. -/
theorem exec_cases {i : Instr} {s t : State} (h : exec i s = .next t) :
    (∃ r, t = s.withResult (some r)) ∨
    (∃ bc fc ra rc, i = .bldRdReq bc fc ra rc ∧
      t = (s.withFb (appendCrc 6 (putHeader bc fc ra rc s)).fb).withResult (some .done)) ∨
    (∃ bc fc ra rc, i = .bldWrReq bc fc ra rc ∧ 9 + 2 * rc.toNat ≤ s.params.fbCap ∧ rc.toNat ≤ s.params.valCap ∧
      t = (s.withFb (buildWriteRequest bc fc ra rc s).fb).withResult (some .done)) ∨
    (∃ rc, i = .extract rc ∧ 3 + 2 * rc.toNat ≤ s.params.fbCap ∧ rc.toNat ≤ s.params.valCap ∧
      t = (s.withVal (takePayload rc.toNat s).val).withResult (some .done)) ∨
    (∃ id, i = .setSlave id ∧ t = (s.withSlaveId id).withResult (some .done)) := by
  cases i with
  | lenRdReq => cases h; exact .inl ⟨_, rfl⟩
  | lenRdRsp rc => cases h; exact .inl ⟨_, rfl⟩
  | lenWrReq rc => cases h; exact .inl ⟨_, rfl⟩
  | lenWrRsp => cases h; exact .inl ⟨_, rfl⟩
  | bldRdReq bc fc ra rc =>
    rw [exec, execBldRdReq_eq] at h
    cases h
    exact .inr (.inl ⟨bc, fc, ra, rc, rfl, rfl⟩)
  | bldWrReq bc fc ra rc =>
    change execBldWrReq bc fc ra rc s = _ at h
    by_cases hf : s.params.fbCap < 9 + 2 * rc.toNat
    · rw [execBldWrReq_frameOverrun _ _ _ hf] at h
      cases h; exact .inl ⟨_, rfl⟩
    · by_cases hv : s.params.valCap < rc.toNat
      · rw [execBldWrReq_valueOverrun _ _ _ hf hv] at h
        cases h; exact .inl ⟨_, rfl⟩
      · rw [execBldWrReq_fits _ _ _ hf hv] at h
        cases h
        exact .inr (.inr (.inl ⟨bc, fc, ra, rc, rfl, by omega, by omega, rfl⟩))
  | valWrRsp bc fc ra rc =>
    change execValWrRsp bc fc ra rc s = _ at h
    by_cases hh : writeResponseHeaderOk bc fc ra rc s
    · rw [execValWrRsp_crc hh] at h
      cases h; exact .inl ⟨_, rfl⟩
    · rw [execValWrRsp_header hh] at h
      cases h; exact .inl ⟨_, rfl⟩
  | valRdRsp bc fc rc =>
    change execValRdRsp bc fc rc s = _ at h
    by_cases hh : readResponsePrefixOk bc fc rc s
    · by_cases hf : s.params.fbCap < 5 + 2 * rc.toNat
      · rw [execValRdRsp_frameOverrun hh hf] at h
        cases h; exact .inl ⟨_, rfl⟩
      · rw [execValRdRsp_crc hh hf] at h
        cases h; exact .inl ⟨_, rfl⟩
    · rw [execValRdRsp_prefix hh] at h
      cases h; exact .inl ⟨_, rfl⟩
  | extract rc =>
    change execExtract rc s = _ at h
    by_cases hf : s.params.fbCap < 3 + 2 * rc.toNat
    · rw [execExtract_frameOverrun hf] at h
      cases h; exact .inl ⟨_, rfl⟩
    · by_cases hv : s.params.valCap < rc.toNat
      · rw [execExtract_valueOverrun hf hv] at h
        cases h; exact .inl ⟨_, rfl⟩
      · rw [execExtract_fits hf hv] at h
        cases h
        exact .inr (.inr (.inr (.inl ⟨rc, rfl, by omega, by omega, rfl⟩)))
  | setSlave id => cases h; exact .inr (.inr (.inr (.inr ⟨id, rfl, rfl⟩)))

/-- What no command touches. -/
theorem exec_unchanged {i : Instr} {s t : State} (h : exec i s = .next t) :
    t.params = s.params ∧ t.broadcastId = s.broadcastId ∧ t.epoch = s.epoch ∧ t.pending = s.pending ∧
      t.hostRead = s.hostRead := by
  obtain ⟨r, rfl⟩ | ⟨bc, fc, ra, rc, -, rfl⟩ | ⟨bc, fc, ra, rc, -, -, -, rfl⟩ | ⟨rc, -, -, -, rfl⟩ | ⟨id, -, rfl⟩ :=
    exec_cases h <;> simp

/-- Every command completes. -/
theorem exec_completes (i : Instr) (s : State) : ∃ t, exec i s = .next t := by
  cases i <;> exact ⟨_, rfl⟩

/-- No command reads the result port. -/
theorem exec_withResult (i : Instr) (s : State) (r : Option Result) : exec i (s.withResult r) = exec i s := by
  cases i with
  | lenRdReq => rfl
  | lenRdRsp rc => rfl
  | lenWrReq rc => rfl
  | lenWrRsp => rfl
  | bldRdReq bc fc ra rc =>
    rw [exec, exec, execBldRdReq_eq, execBldRdReq_eq,
      readRequest_fb_congr (s := s) (t := s.withResult r) (bc := bc) fc ra rc rfl rfl rfl]
    rfl
  | bldWrReq bc fc ra rc =>
    rw [exec, exec]
    by_cases hf : s.params.fbCap < 9 + 2 * rc.toNat
    · rw [execBldWrReq_frameOverrun _ _ _ hf, execBldWrReq_frameOverrun (s := s.withResult r) _ _ _ hf]
      rfl
    · by_cases hv : s.params.valCap < rc.toNat
      · rw [execBldWrReq_valueOverrun _ _ _ hf hv, execBldWrReq_valueOverrun (s := s.withResult r) _ _ _ hf hv]
        rfl
      · rw [execBldWrReq_fits _ _ _ hf hv, execBldWrReq_fits (s := s.withResult r) _ _ _ hf hv,
          buildWriteRequest_fb_congr (s := s) (t := s.withResult r) (bc := bc) fc ra rc rfl rfl rfl fun _ _ => rfl]
        rfl
  | valWrRsp bc fc ra rc =>
    rw [exec, exec]
    by_cases hh : writeResponseHeaderOk bc fc ra rc s
    · rw [execValWrRsp_crc hh, execValWrRsp_crc (s := s.withResult r) hh]
      rfl
    · rw [execValWrRsp_header hh, execValWrRsp_header (s := s.withResult r) hh]
      rfl
  | valRdRsp bc fc rc =>
    rw [exec, exec]
    by_cases hh : readResponsePrefixOk bc fc rc s
    · by_cases hf : s.params.fbCap < 5 + 2 * rc.toNat
      · rw [execValRdRsp_frameOverrun hh hf, execValRdRsp_frameOverrun (s := s.withResult r) hh hf]
        rfl
      · rw [execValRdRsp_crc hh hf, execValRdRsp_crc (s := s.withResult r) hh hf]
        rfl
    · rw [execValRdRsp_prefix hh, execValRdRsp_prefix (s := s.withResult r) hh]
      rfl
  | extract rc =>
    rw [exec, exec]
    by_cases hf : s.params.fbCap < 3 + 2 * rc.toNat
    · rw [execExtract_frameOverrun hf, execExtract_frameOverrun (s := s.withResult r) hf]
      rfl
    · by_cases hv : s.params.valCap < rc.toNat
      · rw [execExtract_valueOverrun hf hv, execExtract_valueOverrun (s := s.withResult r) hf hv]
        rfl
      · rw [execExtract_fits hf hv, execExtract_fits (s := s.withResult r) hf hv,
          takePayload_val_congr (s := s) (t := s.withResult r) rfl fun _ _ _ => rfl]
        rfl
  | setSlave id => rfl

/-! ## What a step can do -/

@[simp] theorem accept_params (rest : List HostAction) (s : State) : (accept rest s).params = s.params := rfl
@[simp] theorem accept_slaveId (rest : List HostAction) (s : State) : (accept rest s).slaveId = s.slaveId := rfl
@[simp] theorem accept_broadcastId (rest : List HostAction) (s : State) :
    (accept rest s).broadcastId = s.broadcastId := rfl
@[simp] theorem accept_fb (rest : List HostAction) (s : State) : (accept rest s).fb = s.fb := rfl
@[simp] theorem accept_val (rest : List HostAction) (s : State) : (accept rest s).val = s.val := rfl
@[simp] theorem accept_epoch (rest : List HostAction) (s : State) : (accept rest s).epoch = s.epoch := rfl
@[simp] theorem accept_pending (rest : List HostAction) (s : State) : (accept rest s).pending = rest := rfl
@[simp] theorem accept_result (rest : List HostAction) (s : State) : (accept rest s).result = none := rfl
@[simp] theorem accept_hostRead (rest : List HostAction) (s : State) : (accept rest s).hostRead = none := rfl

theorem step_of_pending_nil {s : State} (h : s.pending = []) : step s = .next s := by
  simp [step, performNext, h]

theorem step_of_pending_cons {s : State} {a : HostAction} {rest : List HostAction} (h : s.pending = a :: rest) :
    step s = perform a (accept rest s) := by
  simp [step, performNext, h]

/-- The actions of the host: what each answers when it answers a next state. -/
theorem perform_cases {a : HostAction} {s t : State} (h : perform a s = .next t) :
    (∃ w, a = .command w ∧ runCommand w s = .next t) ∨
    (∃ off b, a = .wrFb off b ∧ off < s.params.fbCap ∧ t = put8 off b s) ∨
    (∃ off, a = .rdFb off ∧ off < s.params.fbCap ∧ t = s.withHostRead (some (.fbByte (get8 s off)))) ∨
    (∃ i v, a = .wrVal i v ∧ i < s.params.valCap ∧ t = putVal i v s) ∨
    (∃ i, a = .rdVal i ∧ i < s.params.valCap ∧ t = s.withHostRead (some (.valEntry (getVal s i)))) ∨
    (a = .reset ∧ t = hostReset s) := by
  cases a with
  | command w => exact .inl ⟨w, rfl, h⟩
  | wrFb off b =>
    simp only [perform, hostWrFb] at h
    split at h
    · cases h; exact .inr (.inl ⟨off, b, rfl, ‹_›, rfl⟩)
    · cases h
  | rdFb off =>
    simp only [perform, hostRdFb] at h
    split at h
    · cases h; exact .inr (.inr (.inl ⟨off, rfl, ‹_›, rfl⟩))
    · cases h
  | wrVal i v =>
    simp only [perform, hostWrVal] at h
    split at h
    · cases h; exact .inr (.inr (.inr (.inl ⟨i, v, rfl, ‹_›, rfl⟩)))
    · cases h
  | rdVal i =>
    simp only [perform, hostRdVal] at h
    split at h
    · cases h; exact .inr (.inr (.inr (.inr (.inl ⟨i, rfl, ‹_›, rfl⟩))))
    · cases h
  | reset => cases h; exact .inr (.inr (.inr (.inr (.inr ⟨rfl, rfl⟩))))

/-- A command word runs its instruction or ends with `ILLEGAL_CMD`. -/
theorem runCommand_cases {w : CmdWord} {s t : State} (h : runCommand w s = .next t) :
    (∃ i, decode w = .ok i ∧ exec i s = .next t) ∨
    ((∃ e, decode w = .error e) ∧ t = s.withResult (some (.fault .illegalCmd))) := by
  cases hd : decode w with
  | ok i => exact .inl ⟨i, rfl, runCommand_ok hd s ▸ h⟩
  | error e =>
    rw [runCommand_error hd] at h
    cases h
    exact .inr ⟨⟨e, rfl⟩, rfl⟩

/-- The one inversion of `step`: nothing was pending and nothing changes, or the first pending action was performed. -/
theorem step_cases {s t : State} (h : step s = .next t) :
    (s.pending = [] ∧ t = s) ∨ (∃ a rest, s.pending = a :: rest ∧ perform a (accept rest s) = .next t) := by
  cases hp : s.pending with
  | nil => rw [step_of_pending_nil hp] at h; cases h; exact .inl ⟨rfl, rfl⟩
  | cons a rest => exact .inr ⟨a, rest, rfl, step_of_pending_cons hp ▸ h⟩

end Sys2Proof.Machine
end

