-- ==== Sys2Proof/Laws/Footprint.lean ====
section
/-! SUPPORT. Sys2Proof/Laws/Footprint.lean: on what a command depends, said once: the stored bytes and entries, the parameters,
the selected identity, and what the locations it reads hold. -/

namespace Sys2Proof.Machine

/-- `SLAVE_ID` after an instruction that started with `x` in it. -/
def slaveIdAfter (i : Instr) (x : Byte) : Byte :=
  match i with
  | .lenRdReq => x
  | .lenRdRsp _ => x
  | .lenWrReq _ => x
  | .lenWrRsp => x
  | .bldRdReq _ _ _ _ => x
  | .bldWrReq _ _ _ _ => x
  | .valWrRsp _ _ _ _ => x
  | .valRdRsp _ _ _ => x
  | .extract _ => x
  | .setSlave id => id

/-- What an instruction leaves in `SLAVE_ID`. -/
theorem exec_slaveId {i : Instr} {s t : State} (h : exec i s = .next t) : t.slaveId = slaveIdAfter i s.slaveId := by
  obtain ⟨r, rfl⟩ | ⟨bc, fc, ra, rc, rfl, rfl⟩ | ⟨bc, fc, ra, rc, rfl, -, -, rfl⟩ | ⟨rc, rfl, -, -, rfl⟩ | ⟨id, rfl, rfl⟩ :=
    exec_cases h
  · cases i with
    | setSlave id =>
      have h := congrArg (fun o => match o with | .next u => u.slaveId | _ => id) h
      exact h.symm
    | _ => rfl
  all_goals simp [slaveIdAfter]

/-- The checks of VAL.WRRSP depend on the bytes below 8 and the selected identity alone. -/
theorem writeResponseHeaderOk_congr {bc : Bool} {fc : Byte} {ra rc : Word} {s s' : State}
    (ha : addrSel s' bc = addrSel s bc) (h8 : ∀ j < 8, get8 s' j = get8 s j) :
    writeResponseHeaderOk bc fc ra rc s' ↔ writeResponseHeaderOk bc fc ra rc s := by
  rw [writeResponseHeaderOk, writeResponseHeaderOk, ha, h8 0 (by omega), h8 1 (by omega),
    get16be_congr (h8 2 (by omega)) (h8 3 (by omega)), get16be_congr (h8 4 (by omega)) (h8 5 (by omega))]

/-- Checks 1 to 3 of VAL.RDRSP depend on the first three bytes and the selected identity alone. -/
theorem readResponsePrefixOk_congr {bc : Bool} {fc : Byte} {rc : Word} {s s' : State}
    (ha : addrSel s' bc = addrSel s bc) (h8 : ∀ j < 3, get8 s' j = get8 s j) :
    readResponsePrefixOk bc fc rc s' ↔ readResponsePrefixOk bc fc rc s := by
  rw [readResponsePrefixOk, readResponsePrefixOk, ha, h8 0 (by omega), h8 1 (by omega), h8 2 (by omega)]

/-- Two states that store the same bytes and entries, have the same parameters, select the same identity and hold the same
in what the command reads: the command leaves the same bytes, entries and result. -/
theorem exec_congr {i : Instr} {s s' t : State} (hf : s'.fb = s.fb) (hv : s'.val = s.val) (hp : s'.params = s.params)
    (ha : ∀ bc, addressOperand i = some bc → addrSel s' bc = addrSel s bc)
    (h8 : ∀ j, readsFb i j → get8 s' j = get8 s j) (hw : ∀ j, readsVal i j → getVal s' j = getVal s j)
    (h : exec i s = .next t) :
    exec i s' =
      .next ((((s'.withSlaveId (slaveIdAfter i s'.slaveId)).withFb t.fb).withVal t.val).withResult t.result) := by
  have noEffect : ∀ r, t = s.withResult (some r) →
      s'.withResult (some r) = ((s'.withFb t.fb).withVal t.val).withResult t.result := by
    rintro r rfl
    rw [State.withResult_fb, State.withResult_val, State.withResult_result, ← hf, ← hv]
    rfl
  cases i with
  | lenRdReq => cases h; exact congrArg Host.Outcome.next (noEffect _ rfl)
  | lenRdRsp rc => cases h; exact congrArg Host.Outcome.next (noEffect _ rfl)
  | lenWrReq rc => cases h; exact congrArg Host.Outcome.next (noEffect _ rfl)
  | lenWrRsp => cases h; exact congrArg Host.Outcome.next (noEffect _ rfl)
  | bldRdReq bc fc ra rc =>
    rw [exec, execBldRdReq_eq] at h ⊢
    rw [readRequest_fb_congr (s := s) (t := s') (bc := bc) fc ra rc hf hp (ha bc rfl)]
    cases h
    simp only [State.withResult_fb, State.withFb_fb, State.withResult_val, State.withFb_val, State.withResult_result, ← hv]
    rfl
  | bldWrReq bc fc ra rc =>
    rw [exec] at h ⊢
    by_cases hc : s.params.fbCap < 9 + 2 * rc.toNat
    · rw [execBldWrReq_frameOverrun _ _ _ hc] at h
      rw [execBldWrReq_frameOverrun _ _ _ (hp ▸ hc)]
      cases h; exact congrArg Host.Outcome.next (noEffect _ rfl)
    · by_cases hn : s.params.valCap < rc.toNat
      · rw [execBldWrReq_valueOverrun _ _ _ hc hn] at h
        rw [execBldWrReq_valueOverrun _ _ _ (hp ▸ hc) (hp ▸ hn)]
        cases h; exact congrArg Host.Outcome.next (noEffect _ rfl)
      · rw [execBldWrReq_fits _ _ _ hc hn] at h
        rw [execBldWrReq_fits _ _ _ (hp ▸ hc) (hp ▸ hn),
          buildWriteRequest_fb_congr (s := s) (t := s') (bc := bc) fc ra rc hf hp (ha bc rfl) hw]
        cases h
        simp only [State.withResult_fb, State.withFb_fb, State.withResult_val, State.withFb_val,
          State.withResult_result, ← hv]
        rfl
  | valWrRsp bc fc ra rc =>
    have h8' : ∀ j < 8, get8 s' j = get8 s j := h8
    have hq := writeResponseHeaderOk_congr (fc := fc) (ra := ra) (rc := rc) (ha bc rfl) h8'
    rw [exec] at h ⊢
    by_cases hh : writeResponseHeaderOk bc fc ra rc s
    · rw [execValWrRsp_crc hh] at h
      rw [execValWrRsp_crc (hq.2 hh), validateCrc_congr hp (by omega) h8']
      cases h; exact congrArg Host.Outcome.next (noEffect _ rfl)
    · rw [execValWrRsp_header hh] at h
      rw [execValWrRsp_header fun z => hh (hq.1 z)]
      cases h; exact congrArg Host.Outcome.next (noEffect _ rfl)
  | valRdRsp bc fc rc =>
    have h8' : ∀ j < 5 + 2 * rc.toNat, get8 s' j = get8 s j := h8
    have hq := readResponsePrefixOk_congr (fc := fc) (rc := rc) (ha bc rfl) fun j hj => h8' j (by omega)
    rw [exec] at h ⊢
    by_cases hh : readResponsePrefixOk bc fc rc s
    · by_cases hc : s.params.fbCap < 5 + 2 * rc.toNat
      · rw [execValRdRsp_frameOverrun hh hc] at h
        rw [execValRdRsp_frameOverrun (hq.2 hh) (hp ▸ hc)]
        cases h; exact congrArg Host.Outcome.next (noEffect _ rfl)
      · rw [execValRdRsp_crc hh hc] at h
        rw [execValRdRsp_crc (hq.2 hh) (hp ▸ hc), validateCrc_congr hp (by omega) h8']
        cases h; exact congrArg Host.Outcome.next (noEffect _ rfl)
    · rw [execValRdRsp_prefix hh] at h
      rw [execValRdRsp_prefix fun z => hh (hq.1 z)]
      cases h; exact congrArg Host.Outcome.next (noEffect _ rfl)
  | extract rc =>
    rw [exec] at h ⊢
    by_cases hc : s.params.fbCap < 3 + 2 * rc.toNat
    · rw [execExtract_frameOverrun hc] at h
      rw [execExtract_frameOverrun (hp ▸ hc)]
      cases h; exact congrArg Host.Outcome.next (noEffect _ rfl)
    · by_cases hn : s.params.valCap < rc.toNat
      · rw [execExtract_valueOverrun hc hn] at h
        rw [execExtract_valueOverrun (hp ▸ hc) (hp ▸ hn)]
        cases h; exact congrArg Host.Outcome.next (noEffect _ rfl)
      · rw [execExtract_fits hc hn] at h
        rw [execExtract_fits (hp ▸ hc) (hp ▸ hn), takePayload_val_congr (s := s) (t := s') hv fun j h1 h2 => h8 j ⟨h1, h2⟩]
        cases h
        simp only [State.withResult_fb, State.withVal_fb, State.withResult_val, State.withVal_val,
          State.withResult_result, ← hf]
        rfl
  | setSlave id =>
    cases h
    change Host.Outcome.next _ = Host.Outcome.next _
    congr 1
    apply State.ext <;> first | rfl | exact hf | exact hv

end Sys2Proof.Machine
end

