-- ==== Sys2Proof/Laws/PerInstr.lean ====
section
/-! SUPPORT. Sys2Proof/Laws/PerInstr.lean: statements made of each instruction as syntax. -/

namespace Sys2Proof.Laws.Encoded

/-- The encoding has `z` zero and the operation code of its row: under the mask it is the row's match value. -/
def Statement (i : Instr) : Prop := zField (encode i) = 0 ∧ (opField (encode i)).toNat * 2 ^ 44 = i.mnemonic.matchWord.toNat

/-- An encoding of the row's operation code, whatever its operands are. -/
theorem of_commandWord {i : Instr} {op : Nat} {bc : Bool} {fc : Byte} {ra rc : Word} (hop : op < 16)
    (he : encode i = commandWord op bc fc ra rc) (hm : op * 2 ^ 44 = i.mnemonic.matchWord.toNat) : Statement i := by
  rw [Statement, he, opField_commandWord hop]
  exact ⟨zField_commandWord hop bc fc ra rc, hm⟩

theorem lenRdReq : Statement .lenRdReq := of_commandWord (op := 1) (of_decide_eq_true rfl) rfl rfl

theorem lenRdRsp (rc : Word) : Statement (.lenRdRsp rc) := of_commandWord (op := 2) (of_decide_eq_true rfl) rfl rfl

theorem lenWrReq (rc : Word) : Statement (.lenWrReq rc) := of_commandWord (op := 3) (of_decide_eq_true rfl) rfl rfl

theorem lenWrRsp : Statement .lenWrRsp := of_commandWord (op := 4) (of_decide_eq_true rfl) rfl rfl

theorem bldRdReq (bc : Bool) (fc : Byte) (ra rc : Word) : Statement (.bldRdReq bc fc ra rc) :=
  of_commandWord (op := 5) (of_decide_eq_true rfl) rfl rfl

theorem bldWrReq (bc : Bool) (fc : Byte) (ra rc : Word) : Statement (.bldWrReq bc fc ra rc) :=
  of_commandWord (op := 6) (of_decide_eq_true rfl) rfl rfl

theorem valWrRsp (bc : Bool) (fc : Byte) (ra rc : Word) : Statement (.valWrRsp bc fc ra rc) :=
  of_commandWord (op := 7) (of_decide_eq_true rfl) rfl rfl

theorem valRdRsp (bc : Bool) (fc : Byte) (rc : Word) : Statement (.valRdRsp bc fc rc) :=
  of_commandWord (op := 8) (of_decide_eq_true rfl) rfl rfl

theorem extract (rc : Word) : Statement (.extract rc) := of_commandWord (op := 9) (of_decide_eq_true rfl) rfl rfl

theorem setSlave (id : Byte) : Statement (.setSlave id) := of_commandWord (op := 10) (of_decide_eq_true rfl) rfl rfl

end Sys2Proof.Laws.Encoded
end

