-- ==== Sys2Proof/Tests/Slice0.lean ====
section
/-! SUPPORT. Sys2Proof/Tests/Slice0.lean: the model's own tests, with results from `spec/95_test_vectors.md` and the rules,
and one witness for every statement that has hypotheses, each clause at a boundary value where it has one. -/

namespace Sys2Proof.Tests

open Sys2Proof.Machine

/-! ## Helpers -/

/-- Values from location 0 upwards. -/
def numbered {α : Type} (from0 : Nat) : List α → List (Nat × α)
  | [] => []
  | x :: xs => (from0, x) :: numbered (from0 + 1) xs

/-- The reset block of the test vectors with these bytes at `FB[0..]` and these entries at `VAL[0..]`. -/
def block (bytes : List Byte) (vals : List Word) : State :=
  { State.reset with fb := numbered 0 bytes, val := numbered 0 vals }

/-- The same with given capacities. -/
def sized (fbCap valCap : Nat) (s : State) : State :=
  { s with params := { s.params with fbCap := fbCap, valCap := valCap } }

/-- The same with the other trailer order. -/
def highFirst (s : State) : State := { s with params := { s.params with crcLowFirst := false } }

/-- The state a command word leaves when one step runs it. -/
def ranWord (w : Nat) (s : State) : Option State :=
  match step (s.withFetchWord 48 w) with
  | .next t => some t
  | .fault _ => none
  | .refused _ => none

/-- The state an instruction leaves. -/
def ran (i : Instr) (s : State) : Option State :=
  match exec i s with
  | .next t => some t
  | .fault _ => none
  | .refused _ => none

/-- What a command word returns. -/
def answered (w : Nat) (s : State) : Option Result := (ranWord w s).bind State.result

/-- The `VAL.WRRSP` frame of vector V-VW1. -/
def echoFrame : List Byte := [0x05, 0x10, 0x00, 0x01, 0x00, 0x02, 0x11, 0x8C]

/-- The read response of vector V-VR1. -/
def readFrame : List Byte := [0x05, 0x03, 0x04, 0x12, 0x34, 0xAB, 0xCD, 0x45, 0xE0]

/-! ## Well-formedness: an ill-formed term for each check, refused -/

theorem test_wf_fbCap : ¬ Params.wf { Config.vectorParams with fbCap := 7 } := by decide
theorem test_wf_wrFb : HostAction.wf Config.vectorParams (.wrFb 512 0) = false := by decide
theorem test_wf_rdFb : HostAction.wf Config.vectorParams (.rdFb 512) = false := by decide
theorem test_wf_wrVal : HostAction.wf Config.vectorParams (.wrVal 256 0) = false := by decide
theorem test_wf_rdVal : HostAction.wf Config.vectorParams (.rdVal 256) = false := by decide
theorem test_wf_line_missing_operand : ¬ AsmLine.wf ⟨.valRdRsp, [(.bc, 0), (.fc, 3)]⟩ := by decide
theorem test_wf_line_order : ¬ AsmLine.wf ⟨.valRdRsp, [(.fc, 3), (.bc, 0), (.rc, 2)]⟩ := by decide
theorem test_wf_line_unused_operand : ¬ AsmLine.wf ⟨.extract, [(.ra, 0), (.rc, 2)]⟩ := by decide
theorem test_wf_line_width : ¬ AsmLine.wf ⟨.setSlave, [(.id, 256)]⟩ := by decide

/-! ## Decoding: words written bit by bit from R55 and R56 -/

theorem test_decode_lenRdReq :
    decode 0b0001_0_000_00000000_0000000000000000_0000000000000000 = .ok .lenRdReq := by decide
theorem test_decode_lenRdRsp :
    decode 0b0010_0_000_00000000_0000000000000000_1000000000000001 = .ok (.lenRdRsp 0x8001) := by decide
theorem test_decode_lenWrReq :
    decode 0b0011_1_000_11111111_1111111111111111_0000000000000010 = .ok (.lenWrReq 2) := by decide
theorem test_decode_lenWrRsp :
    decode 0b0100_0_000_00000000_0000000000000000_1111111111111111 = .ok .lenWrRsp := by decide
theorem test_decode_bldRdReq :
    decode 0b0101_1_000_10000001_0100000000000010_0010000000000100 = .ok (.bldRdReq true 0x81 0x4002 0x2004) := by
  decide
theorem test_decode_bldWrReq :
    decode 0b0110_0_000_00010000_0000000000000001_0000000000000010 = .ok (.bldWrReq false 0x10 1 2) := by decide
theorem test_decode_valWrRsp :
    decode 0b0111_1_000_00010000_1010101111001101_0000000000000001 = .ok (.valWrRsp true 0x10 0xABCD 1) := by decide
theorem test_decode_valRdRsp :
    decode 0b1000_0_000_00000011_1111111111111111_0000000000000010 = .ok (.valRdRsp false 3 2) := by decide
theorem test_decode_extract :
    decode 0b1001_0_000_00000000_0000000000000000_0000000000000010 = .ok (.extract 2) := by decide
theorem test_decode_setSlave :
    decode 0b1010_1_000_00010001_0001001000110100_0101011001111000 = .ok (.setSlave 0x11) := by decide

/-- The reserved operation codes and a nonzero `z`, each bit of it. -/
theorem test_decode_reserved :
    (∀ op ∈ [0x0, 0xB, 0xC, 0xD, 0xE, 0xF], decode (BitVec.ofNat 48 (op * 2 ^ 44)) = .error .reservedOp) ∧
      ∀ z ∈ [1, 2, 4, 7], decode (BitVec.ofNat 48 (0x500300100002 + z * 2 ^ 40)) = .error .nonzeroZ := by decide

/-- The rows of the opcode map share one mask, and no two have the same match value. -/
theorem test_opcode_rows_distinct :
    ([Mnemonic.lenRdReq, .lenRdRsp, .lenWrReq, .lenWrRsp, .bldRdReq, .bldWrReq, .valWrRsp, .valRdRsp, .extract,
      .setSlave].map Mnemonic.matchWord).Pairwise (· ≠ ·) := by decide

theorem test_decodeTableWord :
    decodeTableWord 48 0x6810ABCD0001 = some (.bldWrReq true 0x10 0xABCD 1) ∧ decodeTableWord 48 0 = none := by decide

/-! ## Primitives and the CRC (V-M, V-CRC) -/

/-- V-M3 at an odd offset, V-M6. -/
theorem test_marshaller :
    (put16be 7 0x1234 (block [] [])).fb = [(7, 0x12), (8, 0x34)] ∧ get16be (block [0, 0, 0, 0xFF, 0xFF] []) 3 = 65535 := by
  decide

/-- V-CRC7 to V-CRC10. -/
theorem test_crc :
    crc16 [0x05, 0x10, 0x00, 0x01, 0x00, 0x02] = 0x8C11 ∧ crc16 [0x05, 0x03, 0x04, 0x12, 0x34, 0xAB, 0xCD] = 0xE045 ∧
      crc16 [0x05, 0x03, 0x00] = 0x3161 ∧ crc16 [0xFF, 0xFF, 0xFF, 0xFF, 0xFF, 0xFF] = 0x9401 := by decide +kernel

/-! ## One step of each command -/

/-- V-L2, V-L3. -/
theorem test_len_fixed :
    answered 0x10000000FFFF (block [] []) = some (.len 8) ∧ answered 0x400000000000 (block [] []) = some (.len 8) := by
  decide

/-- V-L4, V-L9, V-L10. -/
theorem test_lenRdRsp :
    answered 0x200000000000 (block [] []) = some (.len 5) ∧ answered 0x200000000080 (block [] []) = some (.len 261) ∧
      answered 0x20000000FFFF (block [] []) = some (.len 131075) := by decide

/-- V-L11, V-L16, V-L17. -/
theorem test_lenWrReq :
    answered 0x300000000000 (block [] []) = some (.len 9) ∧ answered 0x300000000080 (block [] []) = some (.len 265) ∧
      answered 0x30000000FFFF (block [] []) = some (.len 131079) := by decide

/-- V-BR1 and V-BR2, over bytes of an earlier frame. -/
theorem test_bldRdReq :
    (ranWord 0x500300100002 (block [9, 9, 9, 9, 9, 9, 9, 9, 7] [])).map State.fb =
        some (numbered 0 [0x05, 0x03, 0x00, 0x10, 0x00, 0x02, 0xC4, 0x4A, 7]) ∧
      (ranWord 0x580300100002 (block [] [])).map State.fb =
        some (numbered 0 [0x00, 0x03, 0x00, 0x10, 0x00, 0x02, 0xC4, 0x1F]) := by decide +kernel

/-- V-BW4 and V-BW3. -/
theorem test_bldWrReq :
    (ranWord 0x601000000003 (block [] [0x8000, 0x00FF, 0xFF00])).map State.fb =
        some (numbered 0 [0x05, 0x10, 0x00, 0x00, 0x00, 0x03, 0x06, 0x80, 0x00, 0x00, 0xFF, 0xFF, 0x00, 0x86, 0x04]) ∧
      (ranWord 0x601000200000 (block [] [])).map State.fb =
        some (numbered 0 [0x05, 0x10, 0x00, 0x20, 0x00, 0x00, 0x00, 0x47, 0x50]) := by decide +kernel

/-- V-BW10, V-BW13 and V-BW11: the fault, and nothing written. -/
theorem test_bldWrReq_faults :
    answered 0x60100000012C (block [] []) = some (.fault .frameOverrun) ∧
      (ranWord 0x601000000004 (sized 16 256 (block [1] []))).map (fun t => (t.result, t.fb)) =
        some (some (.fault .frameOverrun), [(0, 1)]) ∧
      answered 0x601000000065 (sized 512 100 (block [] [])) = some (.fault .valueOverrun) := by decide

/-- V-VW1, V-VW2, V-VW5, V-VW7. -/
theorem test_valWrRsp :
    answered 0x701000010002 (block echoFrame []) = some (.ok true) ∧
      answered 0x701000010003 (block echoFrame []) = some (.ok false) ∧
      answered 0x781000010002 (block echoFrame []) = some (.ok false) ∧
      answered 0x701000010002 (put8 7 0x8D (block echoFrame [])) = some (.ok false) := by decide +kernel

/-- V-VR1, V-VR3, V-VR5, V-VR10. -/
theorem test_valRdRsp :
    answered 0x800300000002 (block readFrame []) = some (.ok true) ∧
      answered 0x800300000000 (block [0x05, 0x03, 0x00, 0x61, 0x31] []) = some (.ok true) ∧
      answered 0x800300000002 (block [0x05, 0x03, 0x03, 0x12, 0x34, 0xAB, 0xCD, 0xF0, 0x20] []) = some (.ok false) ∧
      answered 0x800300000002 (put8 4 0x35 (block readFrame [])) = some (.ok false) := by decide +kernel

/-- V-VR14, V-VR15, V-VR12. -/
theorem test_valRdRsp_capacity :
    answered 0x800300000002 (sized 8 256 (block readFrame [])) = some (.fault .frameOverrun) ∧
      answered 0x800300000001 (sized 8 256 (block readFrame [])) = some (.ok false) ∧
      answered 0x800300000080 (block [0x05, 0x03, 0x00, 0x61, 0x31] []) = some (.ok false) := by decide

/-- V-X3 over older entries, and V-X5. -/
theorem test_extract :
    (ranWord 0x900000000001 (block readFrame [7, 8])).map State.val = some [(0, 0x1234), (1, 8)] ∧
      (ranWord 0x900000000003
          (block [0x07, 0x04, 0x06, 0x00, 0x00, 0xFF, 0xFF, 0x80, 0x01, 0xEB, 0x17] [])).map State.val =
        some [(0, 0x0000), (1, 0xFFFF), (2, 0x8001)] := by decide

/-- V-X6, V-X7, V-X8. -/
theorem test_extract_faults :
    answered 0x900000000002 (sized 8 256 (block readFrame [])) = some .done ∧
      answered 0x900000000003 (sized 8 256 (block readFrame [])) = some (.fault .frameOverrun) ∧
      answered 0x900000000101 (sized 1024 256 (block readFrame [])) = some (.fault .valueOverrun) := by decide

/-- V-S1, V-S2. -/
theorem test_setSlave :
    (ranWord 0xA01100000000 (block [] [])).map State.slaveId = some 0x11 ∧
      (ranWord 0xA80012345678 (block [] [])).map State.slaveId = some 0x00 := by decide

/-- V-S3, V-S4, V-S5, V-S6. -/
theorem test_illegal_words :
    ∀ w ∈ [0x000000000000, 0xB00000000000, 0xF00300100002, 0x510300100002, 0xA41100000000],
      ranWord w (block readFrame []) = some ((block readFrame []).withResult (some (.fault .illegalCmd))) := by decide

/-! ## Host actions, resets and safe runs -/

/-- A step that answers this state. -/
def stepped (s : State) : Option State :=
  match step s with
  | .next t => some t
  | .fault _ => none
  | .refused _ => none

theorem test_host_write_then_read :
    ((stepped ((block [] []).withPending [.wrVal 255 0xBEEF, .rdVal 255])).bind stepped).map State.hostRead =
      some (some (.valEntry 0xBEEF)) := by decide

/-- An action beyond the capacity stops the machine. -/
theorem test_host_out_of_range : stepped ((block [] []).withPending [.wrFb 512 0]) = none := by decide

theorem test_reset_again :
    stepped (((block readFrame [1]).withSlaveId 0x11).withPending [.reset, .rdFb 0]) =
      some ((State.resetWith Config.vectorParams 1).withPending [.rdFb 0]) := by decide

/-- The block after reset has not gone wrong; one whose last command faulted has. -/
theorem test_safeRun : SafeRun 0 State.reset ∧ ¬ SafeRun 0 (raise .illegalCmd State.reset) :=
  ⟨rfl, fun h => absurd h Bool.noConfusion⟩

/-! ## Witnesses: for each statement with hypotheses, a state and operands that meet them

`ran i s` and `stepped s` answer `some t` exactly when `exec i s` and `step s` answer `next t`. -/

theorem witness_CommandStepRunsDecodedInstruction :
    ((block [] []).withPending [.command 0x500300100002, .reset]).pending = .command 0x500300100002 :: [.reset] ∧
      decode 0x500300100002 = .ok (.bldRdReq false 3 0x10 2) ∧ decode 0xB00000000000 = .error .reservedOp ∧
      decodeTableWord 48 0x500300100002 = some (.bldRdReq false 3 0x10 2) := by decide

theorem witness_OpcodeMapIdentifiesTheCommand : decode 0xA801FFFFFFFF = .ok (.setSlave 1) := by decide

theorem witness_UnusedOperandFieldsAreIgnored :
    decode 0x100000000000 = .ok .lenRdReq ∧
      (0x100000000000 : CmdWord) &&& Mnemonic.lenRdReq.usedMask = 0x18FFFFFFFFFF &&& Mnemonic.lenRdReq.usedMask := by
  decide

theorem witness_ReservedWordsEndWithIllegalCmd :
    opField 0x000000000000 = 0x0 ∧ 0xB ≤ (opField 0xB00000000000).toNat ∧ 0xB ≤ (opField 0xF00000000000).toNat ∧
      zField 0x110000000000 ≠ 0 ∧ zField 0xA40000000000 ≠ 0 ∧
      ¬ (opField 0xA80000000000 = 0x0 ∨ 0xB ≤ (opField 0xA80000000000).toNat ∨ zField 0xA80000000000 ≠ 0) := by decide

theorem witness_AssemblerLinesAreCommandWords :
    AsmLine.wf ⟨.setSlave, [(.id, 255)]⟩ ∧ ¬ AsmLine.wf ⟨.setSlave, [(.id, 256)]⟩ ∧ ¬ AsmLine.wf ⟨.setSlave, []⟩ := by
  decide

theorem witness_BigEndianInsertionAndExtraction : (6 : Nat) ≠ 7 ∧ (6 : Nat) ≠ 7 + 1 ∧ (9 : Nat) ≠ 7 ∧ (9 : Nat) ≠ 7 + 1 := by
  decide

theorem witness_EqualIdentitiesMakeBroadcastIrrelevant :
    ((block [] []).withSlaveId 0).slaveId = ((block [] []).withSlaveId 0).broadcastId := by decide

theorem witness_IdentitiesAreReadThroughAddrselOnly :
    (ran (.bldRdReq true 3 0x10 2) (block [] [])).isSome = true ∧ addressOperand (.bldRdReq true 3 0x10 2) ≠ some false ∧
      addressOperand (.bldRdReq false 3 0x10 2) ≠ some true ∧
      (ran (.bldWrReq false 16 0 1) (block [] [7])).map State.result = some (some .done) ∧
      get8 (block [0x04] []) 0 ≠ addrSel (block [0x04] []) false := by decide +kernel

theorem witness_IdentitiesAreReadThroughAddrselOnly_notSetSlave : ∀ id, Instr.bldRdReq true 3 0x10 2 ≠ .setSlave id :=
  fun _ => Instr.noConfusion

theorem witness_CrcLoopAndCheckValues : (0x0001 : Word).toNat % 2 = 1 ∧ (0xFFFE : Word).toNat % 2 = 0 := by decide

theorem witness_CrcCollaboratorContract :
    (block [] []).params.crcLowFirst = true ∧ (highFirst (block [] [])).params.crcLowFirst = false ∧ 2 ≤ 2 := by decide

theorem witness_LengthCommandsReturnTheirFormulas :
    (∀ op ∈ [1, 2, 3, 4], opField (BitVec.ofNat 48 (op * 2 ^ 44)) = BitVec.ofNat 4 op ∧
      zField (BitVec.ofNat 48 (op * 2 ^ 44)) = 0) ∧
      zField 0x440000000000 ≠ 0 ∧ opField 0x440000000000 ∈ ([1, 2, 3, 4] : List (BitVec 4)) := by decide

/-- A frame buffer of exactly the frame's length, for each of the four clauses. -/
theorem witness_LengthsAgreeWithBuildAndValidate :
    (answered 0x100000000000 (sized 8 0 (block [] [])) = some (.len 8) ∧
      (ran (.bldRdReq false 3 0x10 2) (sized 8 0 (block [] []))).isSome = true) ∧
    (answered 0x300000000002 (sized 13 2 (block [] [7, 8])) = some (.len 13) ∧
      (ran (.bldWrReq false 16 0 2) (sized 13 2 (block [] [7, 8]))).map State.result = some (some .done)) ∧
    (answered 0x400000000000 (block echoFrame []) = some (.len 8) ∧
      get8 (block echoFrame []) 0 = addrSel (block echoFrame []) false ∧ get8 (block echoFrame []) 1 = 0x10 ∧
      get16be (block echoFrame []) 2 = 1 ∧ get16be (block echoFrame []) 4 = 2) ∧
    (answered 0x200000000002 (sized 9 0 (block readFrame [])) = some (.len 9) ∧
      get8 (block readFrame []) 0 = addrSel (block readFrame []) false ∧ get8 (block readFrame []) 1 = 3 ∧
      (get8 (block readFrame []) 2).toNat = 2 * (2 : Word).toNat ∧
      (9 : Len).toNat ≤ (sized 9 0 (block readFrame [])).params.fbCap) := by decide +kernel

theorem witness_BldRdReqWritesTheReadRequest :
    opField 0x540300100002 = 5 ∧ zField 0x540300100002 ≠ 0 ∧ opField 0x5F0300100002 = 5 ∧ opField 0x580300100002 = 5 ∧
      zField 0x580300100002 = 0 := by decide

/-- `n = 2`: the three clauses at the capacities where they meet. -/
theorem witness_BldWrReqWritesTheWriteRequest :
    (9 + 2 * (2 : Word).toNat > (sized 12 2 (block [] [])).params.fbCap) ∧
    (9 + 2 * (2 : Word).toNat ≤ (sized 13 1 (block [] [])).params.fbCap ∧
      (2 : Word).toNat > (sized 13 1 (block [] [])).params.valCap) ∧
    (9 + 2 * (2 : Word).toNat ≤ (sized 13 2 (block [] [])).params.fbCap ∧
      (2 : Word).toNat ≤ (sized 13 2 (block [] [])).params.valCap) ∧
    opField 0x610000000000 = 6 ∧ zField 0x610000000000 ≠ 0 ∧ opField 0x680000000000 = 6 ∧ zField 0x680000000000 = 0 := by
  decide

theorem witness_ConstructionRefinesTheFrameLayout :
    (ran (.bldRdReq true 3 0x10 2) (block [] [])).isSome = true ∧
      (ran (.bldWrReq true 16 0 2) (sized 13 2 (block [] [7, 8]))).map State.result = some (some .done) := by
  decide +kernel

/-- The largest count whose byte-count byte is right, and the smallest whose is not. -/
theorem witness_ByteCountWrapsSilently :
    9 + 2 * (127 : Word).toNat ≤ (sized 263 127 (block [] [])).params.fbCap ∧
      (127 : Word).toNat ≤ (sized 263 127 (block [] [])).params.valCap ∧
      9 + 2 * (128 : Word).toNat ≤ (sized 265 128 (block [] [])).params.fbCap ∧
      (128 : Word).toNat ≤ (sized 265 128 (block [] [])).params.valCap := by decide

theorem witness_ValWrRspChecksTheWriteResponse :
    opField 0x720000000000 = 7 ∧ zField 0x720000000000 ≠ 0 ∧ opField 0x780000000000 = 7 ∧ zField 0x780000000000 = 0 := by
  decide

theorem witness_ValWrRspAcceptsExactlyTheEcho :
    (ran (.bldRdReq false 16 1 2) (block echoFrame [])).isSome = true := by decide +kernel

/-- An accepted write response, with a changed header byte and a changed trailer byte. -/
theorem witness_ChangedByteOfWriteResponseIsRejected :
    ran (.valWrRsp false 16 1 2) (block echoFrame []) = some ((block echoFrame []).withResult (some (.ok true))) ∧
      0 < 8 ∧ (0x04 : Byte) ≠ get8 (block echoFrame []) 0 ∧ 7 < 8 ∧ (0x8D : Byte) ≠ get8 (block echoFrame []) 7 := by
  decide +kernel

theorem witness_BuiltReadRequestValidatesAsEcho :
    (ran (.bldRdReq true 3 0x10 2) (highFirst (block [] []))).isSome = true := by decide +kernel

/-- Each failing check alone; then both sides of the capacity test. -/
theorem witness_ValRdRspChecksTheReadResponse :
    (get8 (put8 0 4 (block readFrame [])) 0 ≠ (block readFrame []).slaveId ∧
      get8 (put8 1 4 (block readFrame [])) 1 ≠ 3 ∧ (get8 (put8 2 3 (block readFrame [])) 2).toNat ≠ 2 * (2 : Word).toNat) ∧
    (get8 (block readFrame []) 0 = (block readFrame []).slaveId ∧ get8 (block readFrame []) 1 = 3 ∧
      (get8 (block readFrame []) 2).toNat = 2 * (2 : Word).toNat) ∧
    5 + 2 * (2 : Word).toNat > (sized 8 0 (block readFrame [])).params.fbCap ∧
    5 + 2 * (2 : Word).toNat ≤ (sized 9 0 (block readFrame [])).params.fbCap ∧
    opField 0x840000000000 = 8 ∧ zField 0x840000000000 ≠ 0 ∧ opField 0x880000000000 = 8 ∧ zField 0x880000000000 = 0 := by
  decide

theorem witness_ValRdRspFailsForLargeCounts :
    128 ≤ (128 : Word).toNat ∧
      (ran (.valRdRsp false 3 2) (sized 8 0 (block readFrame []))).map State.result =
        some (some (.fault .frameOverrun)) := by decide

/-- Both sides of the equivalence hold of V-VR1. -/
theorem witness_ValRdRspAcceptsExactlyReadResponses :
    ran (.valRdRsp false 3 2) (sized 9 0 (block readFrame [])) =
        some ((sized 9 0 (block readFrame [])).withResult (some (.ok true))) ∧
      frameBytes (block readFrame []) 9 = readResponseFrame (block readFrame []).params 0x05 3 [0x1234, 0xABCD] := by
  decide +kernel

/-- `n = 2`: the three clauses at the capacities where they meet. -/
theorem witness_ExtractProjectsThePayload :
    (3 + 2 * (2 : Word).toNat > (sized 6 2 (block [] [])).params.fbCap) ∧
    (3 + 2 * (2 : Word).toNat ≤ (sized 7 1 (block [] [])).params.fbCap ∧
      (2 : Word).toNat > (sized 7 1 (block [] [])).params.valCap) ∧
    (3 + 2 * (2 : Word).toNat ≤ (sized 7 2 (block [] [])).params.fbCap ∧
      (2 : Word).toNat ≤ (sized 7 2 (block [] [])).params.valCap) ∧
    opField 0x910000000000 = 9 ∧ zField 0x910000000000 ≠ 0 ∧ opField 0x980000000000 = 9 ∧ zField 0x980000000000 = 0 := by
  decide

/-- A frame buffer and a value array of exactly the needed sizes. -/
theorem witness_ValidatedReadResponseIsExtractedExactly :
    [0x1234, 0xABCD].length = (2 : Word).toNat ∧ (2 : Word).toNat ≤ 127 ∧
      5 + 2 * (2 : Word).toNat ≤ (sized 9 2 (block readFrame [])).params.fbCap ∧
      (2 : Word).toNat ≤ (sized 9 2 (block readFrame [])).params.valCap ∧
      frameBytes (sized 9 2 (block readFrame [])) (5 + 2 * (2 : Word).toNat) =
        readResponseFrame (sized 9 2 (block readFrame [])).params (addrSel (sized 9 2 (block readFrame [])) false) 3
          [0x1234, 0xABCD] := by decide +kernel

/-- The response of 127 registers, the largest the statement admits. -/
def longResponse : List Byte := readResponseFrame Config.vectorParams 0x05 3 (List.replicate 127 0x1234)

theorem read_numbered {α : Type} (xs : List α) (k j : Nat) (h : j < xs.length) :
    Memory.read (numbered k xs) (k + j) = some xs[j] := by
  induction xs generalizing k j with
  | nil => simp at h
  | cons x xs ih =>
    cases j with
    | zero => simp [numbered, Memory.read]
    | succ j =>
      rw [numbered, Memory.read, if_neg (by omega), show k + (j + 1) = k + 1 + j by omega]
      simpa using ih (k + 1) j (by simpa using h)

theorem witness_ValidatedReadResponseIsExtractedExactly_largest :
    (List.replicate 127 (0x1234 : Word)).length = (127 : Word).toNat ∧ (127 : Word).toNat ≤ 127 ∧
      5 + 2 * (127 : Word).toNat ≤ (sized 259 127 (block longResponse [])).params.fbCap ∧
      (127 : Word).toNat ≤ (sized 259 127 (block longResponse [])).params.valCap ∧
      longResponse.length = 5 + 2 * (127 : Word).toNat ∧
      frameBytes (sized 259 127 (block longResponse [])) longResponse.length = longResponse := by
  refine ⟨by simp, by decide, by decide, by decide, by simp [longResponse, readResponseFrame, withTrailer], ?_⟩
  refine (frameBytes_eq_iff _ longResponse).2 fun j h => ?_
  have hr := read_numbered longResponse 0 j h
  rw [Nat.zero_add] at hr
  simp [get8, sized, block, hr]

theorem witness_SetSlaveWritesSlaveIdOnly :
    opField 0xA40000000000 = 10 ∧ zField 0xA40000000000 ≠ 0 ∧ opField 0xA80000000000 = 10 ∧ zField 0xA80000000000 = 0 := by
  decide

/-- BLD.WRREQ in exactly the room it needs; frames that both validate commands accept and reject after SET.SLAVE; and the
four `bc = 1` forms. -/
theorem witness_SetSlaveTakesEffectForTheNextCommand :
    ran (.setSlave 0x11) (block echoFrame []) =
        some (((block echoFrame []).withSlaveId 0x11).withResult (some .done)) ∧
      9 + 2 * (2 : Word).toNat ≤ (sized 13 2 (block [] [])).params.fbCap ∧
      (2 : Word).toNat ≤ (sized 13 2 (block [] [])).params.valCap ∧
      get8 (block echoFrame []) 0 ≠ 0x11 ∧ get8 (block readFrame []) 0 ≠ 0x11 ∧
      answered 0x701000010002 ((block echoFrame []).withSlaveId 0x05) = some (.ok true) ∧
      answered 0x800300000002 (sized 9 2 ((block readFrame []).withSlaveId 0x05)) = some (.ok true) ∧
      addressOperand (.bldRdReq true 3 0x10 2) = some true ∧ addressOperand (.bldWrReq true 16 0 2) = some true ∧
      addressOperand (.valWrRsp true 16 1 2) = some true ∧ addressOperand (.valRdRsp true 3 2) = some true := by
  decide +kernel

theorem witness_FaultsArePreciseAndNotSticky :
    answered 0x000000000000 (block [] []) = some (.fault .illegalCmd) ∧
      answered 0x60100000012C (block [] []) = some (.fault .frameOverrun) ∧
      answered 0x601000000065 (sized 512 100 (block [] [])) = some (.fault .valueOverrun) := by decide

theorem witness_FaultConditionsAndPriority :
    decode 0x610000000000 = .error .nonzeroZ ∧ answered 0x610000000000 (sized 8 0 (block [] [])) = some (.fault .illegalCmd) := by
  decide

theorem witness_EveryCommandReturnsOneResult : decode 0x800300000002 = .ok (.valRdRsp false 3 2) := by decide

theorem witness_CommandsWriteOnlyTheirFootprint :
    (∀ id, Instr.bldWrReq false 16 0 2 ≠ .setSlave id) ∧ ¬ writesFb (.bldWrReq false 16 0 2) 13 ∧
      writesFb (.bldWrReq false 16 0 2) 12 ∧ ¬ writesVal (.extract 2) 2 ∧ writesVal (.extract 2) 1 := by
  refine ⟨fun _ => Instr.noConfusion, ?_, ?_, ?_, ?_⟩ <;> simp only [writesFb, writesVal, writeRequestLength] <;> decide

/-- Two blocks that differ in bytes and entries outside the footprint of EXTRACT. -/
theorem witness_ResultsDependOnTheFootprintOnly :
    (∀ j, readsFb (.extract 2) j →
      get8 (block readFrame [5]) j = get8 (put8 0 9 (put8 7 9 (block readFrame [6]))) j) ∧
    (∀ j, readsVal (.extract 2) j → getVal (block readFrame [5]) j = getVal (put8 0 9 (put8 7 9 (block readFrame [6]))) j) ∧
    (ran (.extract 2) (block readFrame [5])).map State.result = some (some .done) ∧
    (ran (.extract 2) (put8 0 9 (put8 7 9 (block readFrame [6])))).map State.result = some (some .done) := by
  have h : ∀ j < 7, 3 ≤ j → get8 (block readFrame [5]) j = get8 (put8 0 9 (put8 7 9 (block readFrame [6]))) j := by decide
  exact ⟨fun j hj => h j hj.2 hj.1, fun _ hj => hj.elim, by decide, by decide⟩

theorem witness_WrittenFootprintHidesFreeValues :
    footprintWritten (.extract 2) (block readFrame []) ∧ (ran (.extract 2) (block readFrame [])).isSome = true := by
  have h : ∀ j < 7, (Memory.read (block readFrame []).fb j).isSome = true := by decide
  exact ⟨⟨fun j hj => h j hj.2, fun _ hj => hj.elim⟩, by decide⟩

theorem witness_inv : (block readFrame [1, 2]).Inv := ⟨by decide, by decide, by decide, by decide⟩

theorem witness_RepeatingACommandChangesNothing :
    (block readFrame [1, 2]).Inv ∧ (ran (.bldWrReq false 16 0 2) (block readFrame [1, 2])).isSome = true :=
  ⟨witness_inv, by decide +kernel⟩

/-- For each kind of action, a state that meets the invariant and answers a next state. -/
theorem witness_EveryStepKeepsTheInvariant :
    ∀ a ∈ [HostAction.command 0x601000000002, .wrFb 511 1, .rdFb 511, .wrVal 255 1, .rdVal 0, .reset],
      (stepped ((block readFrame [1, 2]).withPending [a])).isSome = true := by decide +kernel

theorem witness_inv_pending (q : List HostAction) : ((block readFrame [1, 2]).withPending q).Inv :=
  ⟨witness_inv.1, witness_inv.2, witness_inv.3, witness_inv.4⟩

theorem witness_BroadcastIdIsImmutable :
    ((block readFrame [1, 2]).withPending [.reset]).Inv ∧
      (stepped ((block readFrame [1, 2]).withPending [.reset])).isSome = true :=
  ⟨witness_inv_pending _, by decide⟩

theorem witness_OnlySetSlaveAndResetWriteSlaveId :
    (stepped ((block [] []).withPending [.command 0xA01100000000])).map State.slaveId = some 0x11 := by decide

theorem witness_DataSpacesNeverChooseTheCommand :
    ((block [] []).withPending [.rdVal 0, .reset]).pending = .rdVal 0 :: [.reset] := rfl

theorem witness_HostActionsReadAndWriteTheDataSpaces :
    511 < (block [] []).params.fbCap ∧ 255 < (block [] []).params.valCap := by decide

/-- A frame that fills the buffer. -/
theorem witness_LoadFbPlacesAFrame :
    ((sized 9 0 (block [] [])).withPending (HostAction.loadFb 0 readFrame ++ [.reset])).pending =
        HostAction.loadFb 0 readFrame ++ [.reset] ∧
      readFrame.length ≤ (sized 9 0 (block [] [])).params.fbCap := by decide

theorem witness_ResetAgainIsAFreshConstruction :
    ((block readFrame []).withPending [.reset, .rdFb 0]).pending = .reset :: [.rdFb 0] := rfl

theorem witness_IdleBlockHoldsItsState : State.reset.pending = [] := rfl

theorem witness_ResetSatisfiesTheInvariant : Params.wf { Config.vectorParams with fbCap := 8 } := by decide

theorem witness_InBoundsActionsNeverStopTheMachine :
    ((block [] []).withPending [.wrFb 511 0, .rdFb 511, .wrVal 255 0, .rdVal 255, .command 0, .reset]).hostInBounds := by
  decide

theorem witness_OutOfRangeHostActionsStop :
    (block [] []).params.fbCap ≤ 512 ∧ (block [] []).params.valCap ≤ 256 := by decide

theorem witness_CanonicalMemoriesAreUnique :
    Memory.wf 9 (numbered 0 readFrame) ∧ Memory.wf 9 (Memory.store (numbered 0 readFrame) 8 0xE0) := by decide

theorem witness_CanonicalMemoriesAreUnique_alike :
    ∀ a, Memory.read (numbered 0 readFrame) a = Memory.read (Memory.store (numbered 0 readFrame) 8 0xE0) a :=
  fun _ => rfl

/-- The same for entries of `VAL`. -/
theorem witness_CanonicalMemoriesAreUnique_entries :
    Memory.wf 2 (numbered 0 [(0x1234 : Word), 0xABCD]) ∧
      Memory.store (Memory.store [] 1 0xABCD) 0 0x1234 = numbered 0 [(0x1234 : Word), 0xABCD] := by decide

end Sys2Proof.Tests
end

section
/-! The identity registers (R13, R20): a command reads them through `addrSel` alone, so where both values of `bc` select
the same identity they run alike; and what reset leaves in the state of R10. -/

namespace Sys2Proof.Machine

/-! ## A command depends on `bc` through the identity it selects -/

/-- The equality of R13: both values of `bc` select the one identity. -/
theorem addrSel_eq_of_slaveId_eq {s : State} (h : s.slaveId = s.broadcastId) (bc bc' : Bool) :
    addrSel s bc = addrSel s bc' := by
  cases bc <;> cases bc' <;> simp [addrSel, h]

section
variable {s : State} {bc bc' : Bool} (h : addrSel s bc = addrSel s bc') (fc : Byte) (ra rc : Word)
include h

theorem putHeader_congr_addrSel : putHeader bc fc ra rc s = putHeader bc' fc ra rc s := by
  rw [putHeader, putHeader, h]

theorem execBldRdReq_congr_addrSel : execBldRdReq bc fc ra rc s = execBldRdReq bc' fc ra rc s := by
  rw [execBldRdReq, execBldRdReq, putHeader_congr_addrSel h]

theorem execBldWrReq_congr_addrSel : execBldWrReq bc fc ra rc s = execBldWrReq bc' fc ra rc s := by
  rw [execBldWrReq, execBldWrReq, buildWriteRequest, buildWriteRequest, putHeader_congr_addrSel h]

theorem execValWrRsp_congr_addrSel : execValWrRsp bc fc ra rc s = execValWrRsp bc' fc ra rc s := by
  rw [execValWrRsp, execValWrRsp, h]

theorem execValRdRsp_congr_addrSel : execValRdRsp bc fc rc s = execValRdRsp bc' fc rc s := by
  rw [execValRdRsp, execValRdRsp, h]

end

/-- SET.SLAVE accepts every identifier (R102), that of `BROADCAST_ID` included. -/
theorem exec_setSlave (id : Byte) (s : State) :
    exec (.setSlave id) s = .next ((s.withSlaveId id).withResult (some .done)) := rfl

/-- Settles O9: with equal identities both values of `bc` select the same one, and a command reads `bc` nowhere else. -/
theorem equalIdentitiesMakeBroadcastIrrelevant : Obligations.EqualIdentitiesMakeBroadcastIrrelevant := by
  unfold Obligations.EqualIdentitiesMakeBroadcastIrrelevant
  intro s
  refine ⟨exec_setSlave s.broadcastId s, fun heq fc ra rc => ?_⟩
  have hsel : addrSel s true = addrSel s false := addrSel_eq_of_slaveId_eq heq true false
  exact ⟨execBldRdReq_congr_addrSel hsel fc ra rc, execBldWrReq_congr_addrSel hsel fc ra rc,
    execValWrRsp_congr_addrSel hsel fc ra rc, execValRdRsp_congr_addrSel hsel fc rc⟩

/-- Settles O43: reset loads the identities from the parameters, and its memories are empty. -/
theorem resetLoadsTheIdentities : Obligations.ResetLoadsTheIdentities := by
  unfold Obligations.ResetLoadsTheIdentities
  intro p k
  refine ⟨State.resetWith_slaveId p k, State.resetWith_broadcastId p k, fun j => ?_, fun i => ?_⟩
  · rw [State.resetWith_fb, Memory.read_nil]
  · rw [State.resetWith_val, Memory.read_nil]

end Sys2Proof.Machine
end

section
/-! The host's access to the data spaces (R40): what each of its four actions answers at a location below the capacity,
and that a write reaches no other location and no other field. -/

namespace Sys2Proof.Machine

/-! ## The host's actions below the capacity -/

section
variable {s : State}

theorem perform_wrFb {off : Nat} (h : off < s.params.fbCap) (b : Byte) :
    perform (.wrFb off b) s = .next (put8 off b s) := by
  rw [perform, hostWrFb, if_pos h]

theorem perform_rdFb {off : Nat} (h : off < s.params.fbCap) :
    perform (.rdFb off) s = .next (s.withHostRead (some (.fbByte (get8 s off)))) := by
  rw [perform, hostRdFb, if_pos h]

theorem perform_wrVal {i : Nat} (h : i < s.params.valCap) (v : Word) :
    perform (.wrVal i v) s = .next (putVal i v s) := by
  rw [perform, hostWrVal, if_pos h]

theorem perform_rdVal {i : Nat} (h : i < s.params.valCap) :
    perform (.rdVal i) s = .next (s.withHostRead (some (.valEntry (getVal s i)))) := by
  rw [perform, hostRdVal, if_pos h]

end

/-! ## The location a write reaches, and the others -/

theorem get8_put8_same (off : Nat) (v : Byte) (s : State) : get8 (put8 off v s) off = v := by
  rw [get8_put8, if_pos rfl]

theorem get8_put8_other {off j : Nat} (h : j ≠ off) (v : Byte) (s : State) : get8 (put8 off v s) j = get8 s j := by
  rw [get8_put8, if_neg h]

theorem getVal_putVal_same (i : Nat) (v : Word) (s : State) : getVal (putVal i v s) i = v := by
  rw [getVal_putVal, if_pos rfl]

theorem getVal_putVal_other {i j : Nat} (h : j ≠ i) (v : Word) (s : State) : getVal (putVal i v s) j = getVal s j := by
  rw [getVal_putVal, if_neg h]

/-- A write of `VAL` changes no field but `val`. -/
theorem putVal_eq (i : Nat) (v : Word) (s : State) : putVal i v s = s.withVal (putVal i v s).val := rfl

/-- Settles O41: a write answers the state with the one location stored, a read the state with the host's read port set. -/
theorem hostActionsReadAndWriteTheDataSpaces : Obligations.HostActionsReadAndWriteTheDataSpaces := by
  unfold Obligations.HostActionsReadAndWriteTheDataSpaces
  intro s
  refine ⟨fun off b h => ?wrFb, fun off h => perform_rdFb h, fun i v h => ?wrVal, fun i h => perform_rdVal h⟩
  case wrFb =>
    exact ⟨put8 off b s, perform_wrFb h b, put8_eq off b s, get8_put8_same off b s,
      fun _ hj => get8_put8_other hj b s⟩
  case wrVal =>
    exact ⟨putVal i v s, perform_wrVal h v, putVal_eq i v s, getVal_putVal_same i v s,
      fun _ hj => getVal_putVal_other hj v s⟩

end Sys2Proof.Machine
end

section
/-! The command word (R55 to R58): what a mask of whole fields keeps of a word, that the decoder reads exactly the fields
the opcode map lists for the command, and which words are no command at all. -/

namespace Sys2Proof

open Machine

/-! ## The fields of a word under a mask of whole fields -/

section
variable (w : CmdWord) (b f a r : Bool)

theorem opField_and_fieldMask : opField (w &&& fieldMask b f a r) = opField w := by
  have hmask : ∀ b f a r, (fieldMask b f a r).extractLsb' 44 4 = BitVec.allOnes 4 := by decide
  rw [opField, BitVec.extractLsb'_and, hmask, BitVec.and_allOnes, opField]

theorem zField_and_fieldMask : zField (w &&& fieldMask b f a r) = zField w := by
  have hmask : ∀ b f a r, (fieldMask b f a r).extractLsb' 40 3 = BitVec.allOnes 3 := by decide
  rw [zField, BitVec.extractLsb'_and, hmask, BitVec.and_allOnes, zField]

theorem bcField_and_fieldMask : bcField (w &&& fieldMask true f a r) = bcField w := by
  have hmask : ∀ f a r, (fieldMask true f a r).getLsbD 43 = true := by decide
  rw [bcField, BitVec.getLsbD_and, hmask, Bool.and_true, bcField]

theorem fcField_and_fieldMask : fcField (w &&& fieldMask b true a r) = fcField w := by
  have hmask : ∀ b a r, (fieldMask b true a r).extractLsb' 32 8 = BitVec.allOnes 8 := by decide
  rw [fcField, BitVec.extractLsb'_and, hmask, BitVec.and_allOnes, fcField]

theorem raField_and_fieldMask : raField (w &&& fieldMask b f true r) = raField w := by
  have hmask : ∀ b f r, (fieldMask b f true r).extractLsb' 16 16 = BitVec.allOnes 16 := by decide
  rw [raField, BitVec.extractLsb'_and, hmask, BitVec.and_allOnes, raField]

theorem rcField_and_fieldMask : rcField (w &&& fieldMask b f a true) = rcField w := by
  have hmask : ∀ b f a, (fieldMask b f a true).extractLsb' 0 16 = BitVec.allOnes 16 := by decide
  rw [rcField, BitVec.extractLsb'_and, hmask, BitVec.and_allOnes, rcField]

end

/-! ## The decoder looks at the used fields only -/

/-- R58: whether a word decodes to `i` is settled by `op`, `z` and the operand fields listed for the command. -/
theorem decode_and_usedMask_iff (w : CmdWord) (i : Instr) :
    decode (w &&& i.mnemonic.usedMask) = .ok i ↔ decode w = .ok i := by
  cases i <;> simp [decode_ok_iff, Instr.mnemonic, usedMask_eq, opField_and_fieldMask, zField_and_fieldMask,
    bcField_and_fieldMask, fcField_and_fieldMask, raField_and_fieldMask, rcField_and_fieldMask]

/-- With `z` zero, a word under a mask of whole fields is the command word of its `op` and its kept fields. -/
theorem and_fieldMask_eq_commandWord {w : CmdWord} (hz : zField w = 0) (b f a r : Bool) :
    w &&& fieldMask b f a r =
      commandWord (opField w).toNat (b && bcField w) (if f then fcField w else 0) (if a then raField w else 0)
        (if r then rcField w else 0) := by
  apply BitVec.eq_of_toNat_eq
  rw [and_fieldMask_toNat, commandWord_toNat (opField w).isLt, hz]
  cases b <;> cases f <;> cases a <;> cases r <;> simp

theorem encode_of_decode {w : CmdWord} {i : Instr} (h : decode w = .ok i) : encode i = w &&& i.mnemonic.usedMask := by
  obtain ⟨hz, hrow⟩ := (decode_ok_iff w i).1 h
  cases i <;> simp at hrow <;> simp [hrow, encode, Instr.mnemonic, usedMask_eq, and_fieldMask_eq_commandWord hz]

/-! ## The opcode map (R56) -/

theorem matchWord_injective : Function.Injective Mnemonic.matchWord := by
  intro m m'
  cases m <;> cases m' <;> decide

/-- The word under the mask is a row's match value exactly when `z` is zero and `op` is the row's operation code. -/
theorem and_opcodeMask_eq_matchWord_iff (w : CmdWord) (m : Mnemonic) :
    w &&& opcodeMask = m.matchWord ↔ zField w = 0 ∧ (opField w).toNat * 2 ^ 44 = m.matchWord.toNat := by
  have hz := (zField w).isLt
  rw [← BitVec.toNat_inj, and_opcodeMask_toNat, ← BitVec.toNat_inj (x := zField w)]
  cases m <;> simp [Mnemonic.matchWord] <;> omega

theorem and_opcodeMask_of_decode {w : CmdWord} {i : Instr} (h : decode w = .ok i) :
    w &&& opcodeMask = i.mnemonic.matchWord := by
  obtain ⟨hz, hrow⟩ := (decode_ok_iff w i).1 h
  rw [and_opcodeMask_eq_matchWord_iff]
  cases i <;> simp at hrow <;> simp [hz, hrow, Instr.mnemonic, Mnemonic.matchWord]

/-- A word that shows a match value under the mask is a command. -/
theorem decode_isOk_of_matchWord {w : CmdWord} {m : Mnemonic} (h : w &&& opcodeMask = m.matchWord) :
    ∃ i, decode w = .ok i := by
  obtain ⟨hz, hop⟩ := (and_opcodeMask_eq_matchWord_iff w m).1 h
  have hrow : 1 * 2 ^ 44 ≤ m.matchWord.toNat ∧ m.matchWord.toNat ≤ 10 * 2 ^ 44 := by cases m <;> decide
  exact (decode_isOk_iff w).2 ⟨hz, by omega, by omega⟩

/-- Settles O4: the match values are distinct, a word that shows one decodes, and it is the match value of the
instruction read; the instruction's encoding puts the kept fields back in their places. -/
theorem opcodeMapIdentifiesTheCommand : Obligations.OpcodeMapIdentifiesTheCommand := by
  unfold Obligations.OpcodeMapIdentifiesTheCommand
  refine ⟨fun w m => ⟨?_, fun h => ?_⟩, fun w i => encode_of_decode⟩
  · rintro ⟨i, hi, rfl⟩
    exact and_opcodeMask_of_decode hi
  · obtain ⟨i, hi⟩ := decode_isOk_of_matchWord h
    exact ⟨i, hi, matchWord_injective ((and_opcodeMask_of_decode hi).symm.trans h)⟩

/-- Settles O5: both words are decided by the one word that is left under the used mask. -/
theorem unusedOperandFieldsAreIgnored : Obligations.UnusedOperandFieldsAreIgnored := by
  unfold Obligations.UnusedOperandFieldsAreIgnored
  intro w w' i hw hagree
  have hw' : decode w' = .ok i := by
    rw [← decode_and_usedMask_iff, ← hagree, decode_and_usedMask_iff]
    exact hw
  exact ⟨hw', fun s => by rw [runCommand_ok hw, runCommand_ok hw']⟩

/-! ## The words that are no command (R57) -/

/-- The words R57 calls illegal are exactly those that do not decode. -/
theorem reserved_iff_not_isOk (w : CmdWord) :
    (opField w = 0x0 ∨ 0xB ≤ (opField w).toNat ∨ zField w ≠ 0b000) ↔ ¬ ∃ i, decode w = .ok i := by
  have hop : opField w = 0x0 ↔ (opField w).toNat = 0 := BitVec.toNat_inj.symm
  have hz : zField w = 0b000 ↔ (zField w).toNat = 0 := BitVec.toNat_inj.symm
  rw [decode_isOk_iff, hop, ne_eq, hz]
  omega

/-- A word that does not decode changes no state but the result port. -/
theorem runCommand_of_not_isOk {w : CmdWord} (h : ¬ ∃ i, decode w = .ok i) (s : State) :
    runCommand w s = .next (s.withResult (some (.fault .illegalCmd))) := by
  cases hd : decode w with
  | ok i => exact absurd ⟨i, hd⟩ h
  | error e => exact runCommand_error hd s

/-- Settles O6: a reserved word does not decode, and every other word does. -/
theorem reservedWordsEndWithIllegalCmd : Obligations.ReservedWordsEndWithIllegalCmd := by
  unfold Obligations.ReservedWordsEndWithIllegalCmd
  intro w s
  rw [reserved_iff_not_isOk, not_not]
  refine ⟨fun h => runCommand_of_not_isOk h s, ?_⟩
  rintro ⟨i, hi⟩
  exact ⟨i, hi, runCommand_ok hi s⟩

/-- Settles O2: the assembler and the decoder evaluated on the worked lines and words of R62. -/
theorem workedCommandWordsOfTheSpec : Obligations.WorkedCommandWordsOfTheSpec := by
  unfold Obligations.WorkedCommandWordsOfTheSpec
  decide

end Sys2Proof
end

section
/-! The marshaller and the CRC collaborator (R66, R68, R71, R74): where `PUT16BE` puts the bytes that `GET16BE` joins, the
loop of `CRC16` one byte at a time and one bit at a time, and that a trailer just appended validates. -/

namespace Sys2Proof.Machine

/-! ## `PUT16BE` and `GET16BE` -/

section
variable (off : Nat) (v : Word) (s : State)

theorem get8_put16be_high : get8 (put16be off v s) off = hiByte v := by
  rw [get8_put16be, if_neg (by omega), if_pos rfl]

theorem get8_put16be_low : get8 (put16be off v s) (off + 1) = loByte v := by
  rw [get8_put16be, if_pos rfl]

theorem get8_put16be_other {j : Nat} (h0 : j ≠ off) (h1 : j ≠ off + 1) : get8 (put16be off v s) j = get8 s j := by
  rw [get8_put16be, if_neg h1, if_neg h0]

/-- `PUT16BE` changes no field but `fb`. -/
theorem put16be_eq : put16be off v s = s.withFb (put16be off v s).fb := rfl

theorem get16be_put16be : get16be (put16be off v s) off = v := by
  rw [get16be, get8_put16be_high, get8_put16be_low, joinBytes_split]

theorem get16be_toNat : (get16be s off).toNat = (get8 s off).toNat * 256 + (get8 s (off + 1)).toNat :=
  joinBytes_toNat _ _

end

/-- Settles O8: the bytes put are those that joined give the value again. -/
theorem bigEndianInsertionAndExtraction : Obligations.BigEndianInsertionAndExtraction := by
  unfold Obligations.BigEndianInsertionAndExtraction
  refine ⟨fun off v s => ⟨?high, ?low, fun j => get8_put16be_other off v s, put16be_eq off v s,
    get16be_put16be off v s⟩, get16be_toNat⟩
  case high => rw [get8_put16be_high, hiByte_toNat]
  case low => rw [get8_put16be_low, loByte_toNat]

/-! ## The loop of `CRC16` -/

theorem crc16_nil : crc16 [] = 0xFFFF := rfl

/-- One byte of the loop of R71, as an iteration. -/
theorem crcByte_eq_iterate (c : Word) (b : Byte) :
    crcByte c b = Nat.iterate crcBit 8 (c ^^^ BitVec.ofNat 16 b.toNat) := by
  rw [crcByte, crcRounds_eq_iterate, BitVec.ofNat_toNat]

theorem crc16_append_singleton (bytes : List Byte) (b : Byte) : crc16 (bytes ++ [b]) = crcByte (crc16 bytes) b :=
  crcBytes_append _ bytes [b]

/-- The logical right shift of R71 is the halving of the number. -/
theorem ushiftRight_one_eq_ofNat (c : Word) : c >>> 1 = BitVec.ofNat 16 (c.toNat / 2) := by
  have hlt : c.toNat / 2 < 2 ^ 16 := Nat.lt_of_le_of_lt (Nat.div_le_self ..) c.isLt
  apply BitVec.eq_of_toNat_eq
  rw [BitVec.toNat_ushiftRight, Nat.shiftRight_one, BitVec.toNat_ofNat, Nat.mod_eq_of_lt hlt]

theorem crcBit_of_odd {c : Word} (h : c.toNat % 2 = 1) : crcBit c = BitVec.ofNat 16 (c.toNat / 2) ^^^ 0xA001 := by
  have hbit : c.getLsbD 0 = true := by rw [BitVec.getLsbD, Nat.testBit_zero, h]; rfl
  rw [crcBit, if_pos hbit, ushiftRight_one_eq_ofNat]

theorem crcBit_of_even {c : Word} (h : c.toNat % 2 = 0) : crcBit c = BitVec.ofNat 16 (c.toNat / 2) := by
  have hbit : ¬ c.getLsbD 0 = true := by rw [BitVec.getLsbD, Nat.testBit_zero, h]; decide
  rw [crcBit, if_neg hbit, ushiftRight_one_eq_ofNat]

/-- Settles O11: the loop rules for one byte and one bit, and the loop evaluated on the check values of R71. -/
theorem crcLoopAndCheckValues : Obligations.CrcLoopAndCheckValues := by
  unfold Obligations.CrcLoopAndCheckValues
  refine ⟨crc16_nil, fun bytes b => ?_, fun c => crcBit_of_odd, fun c => crcBit_of_even, ?_⟩
  · rw [crc16_append_singleton, crcByte_eq_iterate]
  · decide +kernel

/-! ## `VALIDATE_CRC` after `APPEND_CRC` -/

/-- Settles O13: the trailer is compared with the CRC of the bytes that `APPEND_CRC` left alone, in the same order. -/
theorem appendedCrcValidates : Obligations.AppendedCrcValidates := by
  unfold Obligations.AppendedCrcValidates
  intro len s
  rw [validateCrc_eq_true_iff, show len + 2 - 2 = len by omega, show len + 2 - 1 = len + 1 by omega,
    frameBytes_appendCrc, get8_appendCrc, get8_appendCrc, appendCrc_params]
  constructor
  · rw [if_neg (by omega), if_pos rfl]
  · rw [if_pos rfl]

end Sys2Proof.Machine
end

section
/-! The address selector (R69): which identity it reads, that byte 0 of a built frame and check 1 of a validated one go
through it, and that an identity it does not select reaches no command. -/

namespace Sys2Proof.Machine

/-! ## Byte 0 of a request, and check 1 of a response -/

theorem addrSel_true (s : State) : addrSel s true = s.broadcastId := rfl

theorem addrSel_false (s : State) : addrSel s false = s.slaveId := rfl

section
variable {bc : Bool} {fc : Byte} {ra rc : Word} {s t : State}

theorem get8_zero_of_bldRdReq (h : exec (.bldRdReq bc fc ra rc) s = .next t) : get8 t 0 = addrSel s bc := by
  rw [exec, execBldRdReq_eq] at h
  cases h
  rw [get8_withFb_withResult (readRequest_eq bc fc ra rc s), get8_appendCrc, if_neg (by omega), if_neg (by omega),
    get8_putHeader, if_pos rfl]

/-- BLD.WRREQ that ends with `DONE` has passed both capacity checks and written its frame. -/
theorem bldWrReq_of_done (h : exec (.bldWrReq bc fc ra rc) s = .next t) (hr : t.result = some .done) :
    t = (s.withFb (buildWriteRequest bc fc ra rc s).fb).withResult (some .done) := by
  rw [exec] at h
  by_cases hf : s.params.fbCap < 9 + 2 * rc.toNat
  · rw [execBldWrReq_frameOverrun _ _ _ hf] at h
    cases h; cases hr
  · by_cases hv : s.params.valCap < rc.toNat
    · rw [execBldWrReq_valueOverrun _ _ _ hf hv] at h
      cases h; cases hr
    · rw [execBldWrReq_fits _ _ _ hf hv] at h
      cases h; rfl

theorem get8_zero_of_bldWrReq (h : exec (.bldWrReq bc fc ra rc) s = .next t) (hr : t.result = some .done) :
    get8 t 0 = addrSel s bc := by
  rw [bldWrReq_of_done h hr, get8_withFb_withResult (buildWriteRequest_eq bc fc ra rc s),
    get8_writeRequest_header _ _ _ _ _ (by omega), get8_put8_other (by omega), get8_putHeader, if_pos rfl]

theorem exec_valWrRsp_of_address_ne (h : get8 s 0 ≠ addrSel s bc) :
    exec (.valWrRsp bc fc ra rc) s = .next (s.withResult (some (.ok false))) :=
  execValWrRsp_header fun hok => h hok.1

theorem exec_valRdRsp_of_address_ne (h : get8 s 0 ≠ addrSel s bc) :
    exec (.valRdRsp bc fc rc) s = .next (s.withResult (some (.ok false))) :=
  execValRdRsp_prefix fun hok => h hok.1

end

/-! ## Other values in the identity registers -/

/-- The state with other values in the two identity registers. -/
def State.withIdentities (s : State) (x y : Byte) : State := { s with slaveId := x, broadcastId := y }

section
variable {i : Instr} {s t : State} (x y : Byte)

/-- A command whose selected identity is the same runs the same on other identities. -/
theorem exec_withIdentities (ha : ∀ bc, addressOperand i = some bc → addrSel (s.withIdentities x y) bc = addrSel s bc)
    (h : exec i s = .next t) :
    exec i (s.withIdentities x y) = .next (t.withIdentities (slaveIdAfter i x) y) := by
  obtain ⟨hparams, -, hepoch, hpending, hhostRead⟩ := exec_unchanged h
  rw [exec_congr (s := s) (s' := s.withIdentities x y) rfl rfl rfl ha (fun _ _ => rfl) (fun _ _ => rfl) h]
  congr 1
  exact State.ext hparams.symm rfl rfl rfl rfl hepoch.symm hpending.symm rfl hhostRead.symm

theorem slaveIdAfter_of_ne_setSlave (h : ∀ id, i ≠ .setSlave id) : slaveIdAfter i x = x := by
  cases i with
  | setSlave id => exact absurd rfl (h id)
  | _ => rfl

/-- A command that does not select `SLAVE_ID`, and does not write it, runs the same whatever it holds. -/
theorem exec_slaveId_irrelevant (hi : addressOperand i ≠ some false) (hset : ∀ id, i ≠ .setSlave id)
    (h : exec i s = .next t) : exec i { s with slaveId := x } = .next { t with slaveId := x } := by
  have ha : ∀ bc, addressOperand i = some bc → addrSel (s.withIdentities x s.broadcastId) bc = addrSel s bc
    | true, _ => rfl
    | false, hbc => absurd hbc hi
  obtain ⟨-, hbroadcast, -⟩ := exec_unchanged h
  have ht : t.withIdentities (slaveIdAfter i x) s.broadcastId = { t with slaveId := x } := by
    rw [slaveIdAfter_of_ne_setSlave x hset, ← hbroadcast, State.withIdentities]
  exact ht ▸ exec_withIdentities x s.broadcastId ha h

/-- A command that does not select `BROADCAST_ID` runs the same whatever it holds. -/
theorem exec_broadcastId_irrelevant (hi : addressOperand i ≠ some true) (h : exec i s = .next t) :
    exec i { s with broadcastId := y } = .next { t with broadcastId := y } := by
  have ha : ∀ bc, addressOperand i = some bc → addrSel (s.withIdentities s.slaveId y) bc = addrSel s bc
    | true, hbc => absurd hbc hi
    | false, _ => rfl
  have ht : t.withIdentities (slaveIdAfter i s.slaveId) y = { t with broadcastId := y } := by
    rw [← exec_slaveId h, State.withIdentities]
  exact ht ▸ exec_withIdentities s.slaveId y ha h

end

/-- Settles O10: byte 0 of each frame goes through `ADDRSEL`, and a command depends on the identities through the one
`ADDRSEL` selects. -/
theorem identitiesAreReadThroughAddrselOnly : Obligations.IdentitiesAreReadThroughAddrselOnly := by
  unfold Obligations.IdentitiesAreReadThroughAddrselOnly
  refine ⟨fun s => ⟨addrSel_true s, addrSel_false s⟩, fun bc fc ra rc s => ⟨fun t => get8_zero_of_bldRdReq,
    fun t => get8_zero_of_bldWrReq, fun h => ⟨exec_valWrRsp_of_address_ne h, exec_valRdRsp_of_address_ne h⟩⟩,
    fun i s t x => exec_slaveId_irrelevant x, fun i s t y => exec_broadcastId_irrelevant y⟩

end Sys2Proof.Machine
end

section
/-! The length commands (R80 to R84): what each returns, that the 18 bits of `LEN` hold it, and that the build and the
validate commands are over exactly the length returned. -/

namespace Sys2Proof.Machine

/-! ## What the length commands return -/

section
variable (rc : Word) (s : State)

theorem exec_lenRdReq : exec .lenRdReq s = .next (s.withResult (some (.len 8))) := rfl

theorem exec_lenRdRsp :
    exec (.lenRdRsp rc) s = .next (s.withResult (some (.len (BitVec.ofNat 18 (5 + 2 * rc.toNat))))) := rfl

theorem exec_lenWrReq :
    exec (.lenWrReq rc) s = .next (s.withResult (some (.len (BitVec.ofNat 18 (9 + 2 * rc.toNat))))) := rfl

theorem exec_lenWrRsp : exec .lenWrRsp s = .next (s.withResult (some (.len 8))) := rfl

end

/-- R77: the length of a frame with `n` values does not wrap in 18 bits, for every 16-bit `n`. -/
theorem len_toNat {k : Nat} (hk : k ≤ 9) (rc : Word) :
    (BitVec.ofNat 18 (k + 2 * rc.toNat)).toNat = k + 2 * rc.toNat := by
  have hrc : rc.toNat < 2 ^ 16 := rc.isLt
  rw [BitVec.toNat_ofNat, Nat.mod_eq_of_lt (by omega)]

/-- Settles O14: the formulas stay below 2^18, and the decoder reads each `op` as its length command. -/
theorem lengthCommandsReturnTheirFormulas : Obligations.LengthCommandsReturnTheirFormulas := by
  unfold Obligations.LengthCommandsReturnTheirFormulas
  refine ⟨exec_lenRdReq, fun rc s => ⟨_, len_toNat (by decide) rc, exec_lenRdRsp rc s⟩,
    fun rc s => ⟨_, len_toNat (by decide) rc, exec_lenWrReq rc s⟩, exec_lenWrRsp, fun w s hz => ?decoded,
    fun w s hz _ => runCommand_error (decode_nonzeroZ hz) s⟩
  case decoded =>
    refine ⟨fun hop => ?_, fun hop => ?_, fun hop => ?_, fun hop => ?_⟩ <;>
      exact runCommand_ok ((decode_ok_iff w _).2 (by simp [hz, hop])) s

/-! ## A frame of the returned length (R84) -/

/-- A command that returns a length returns one length. -/
theorem len_eq_of_exec {i : Instr} {s : State} {u v : Len} (hu : exec i s = .next (s.withResult (some (.len u))))
    (hv : exec i s = .next (s.withResult (some (.len v)))) : v = u := by
  cases hu.symm.trans hv
  rfl

/-- From the state `s` to the state `t`, a frame with a valid CRC was written at exactly the offsets below `n`. -/
def WritesValidFrame (s t : State) (n : Nat) : Prop :=
  validateCrc t n = true ∧ (∀ j, j < n → (Memory.read t.fb j).isSome) ∧
    (∀ j, n ≤ j → Memory.read t.fb j = Memory.read s.fb j)

section
variable {bc : Bool} {fc : Byte} {ra rc : Word} {s t : State}

theorem bldRdReq_writesValidFrame (h : exec (.bldRdReq bc fc ra rc) s = .next t) : WritesValidFrame s t 8 := by
  rw [exec, execBldRdReq_eq] at h
  cases h
  refine ⟨?_, fun j => (read_readRequest bc fc ra rc s j).1, fun j => (read_readRequest bc fc ra rc s j).2⟩
  rw [validateCrc_withFb_withResult (readRequest_eq bc fc ra rc s)]
  exact appendedCrcValidates 6 _

theorem bldWrReq_writesValidFrame (h : exec (.bldWrReq bc fc ra rc) s = .next t) (hr : t.result = some .done) :
    WritesValidFrame s t (9 + 2 * rc.toNat) := by
  rw [bldWrReq_of_done h hr]
  refine ⟨?_, fun j => (read_writeRequest bc fc ra rc s j).1, fun j => (read_writeRequest bc fc ra rc s j).2⟩
  rw [validateCrc_withFb_withResult (buildWriteRequest_eq bc fc ra rc s), buildWriteRequest, writeRequestLength,
    show 9 + 2 * rc.toNat - 2 = 7 + 2 * rc.toNat by omega, show 9 + 2 * rc.toNat = 7 + 2 * rc.toNat + 2 by omega]
  exact appendedCrcValidates _ _

end

/-- Settles O15: each command uses the formula its length command returns. -/
theorem lengthsAgreeWithBuildAndValidate : Obligations.LengthsAgreeWithBuildAndValidate := by
  unfold Obligations.LengthsAgreeWithBuildAndValidate
  refine ⟨fun bc fc ra rc s t v hlen hbuild => ?bldRdReq, fun bc fc ra rc s t v hlen hbuild hdone => ?bldWrReq,
    fun bc fc ra rc s v hlen haddr hfc hra hrc => ?valWrRsp,
    fun bc fc rc s v hlen haddr hfc hcount hfits => ?valRdRsp⟩
  case bldRdReq =>
    cases len_eq_of_exec (exec_lenRdReq s) hlen
    exact bldRdReq_writesValidFrame hbuild
  case bldWrReq =>
    cases len_eq_of_exec (exec_lenWrReq rc s) hlen
    rw [len_toNat (by decide)]
    exact bldWrReq_writesValidFrame hbuild hdone
  case valWrRsp =>
    cases len_eq_of_exec (exec_lenWrRsp s) hlen
    exact execValWrRsp_crc ⟨haddr, hfc, hra, hrc⟩
  case valRdRsp =>
    cases len_eq_of_exec (exec_lenRdRsp rc s) hlen
    rw [len_toNat (by decide)] at hfits ⊢
    exact execValRdRsp_crc ⟨haddr, hfc, hcount⟩ (Nat.not_lt.2 hfits)

end Sys2Proof.Machine
end

section
/-! The construct commands (R86, R88): the bytes of the two requests in the state a build command leaves, one at a time
and as numbers, and that nothing else of the state is written. -/

namespace Sys2Proof.Machine

/-! ## The state after a build command -/

/-- A state that differs from `s` in `FB` alone differs, with a result, in `FB` and the result port alone. -/
theorem withResult_eq_of_eq_withFb {s u : State} (h : u = s.withFb u.fb) (r : Option Result) :
    u.withResult r = { s with fb := (u.withResult r).fb, result := r } :=
  congrArg (State.withResult · r) h

theorem frameBytes_withResult (s : State) (r : Option Result) (len : Nat) :
    frameBytes (s.withResult r) len = frameBytes s len :=
  frameBytes_congr fun j _ => get8_withResult s r j

/-! ## The header and the trailer as numbers -/

/-- The six header bytes of R50, in every state that agrees with the one the header was put in. -/
theorem header_of_agrees_putHeader {bc : Bool} {fc : Byte} {ra rc : Word} {s u : State}
    (h : ∀ j < 6, get8 u j = get8 (putHeader bc fc ra rc s) j) :
    get8 u 0 = addrSel s bc ∧ get8 u 1 = fc ∧
      (get8 u 2).toNat = ra.toNat / 256 ∧ (get8 u 3).toNat = ra.toNat % 256 ∧
      (get8 u 4).toNat = rc.toNat / 256 ∧ (get8 u 5).toNat = rc.toNat % 256 := by
  simp [h, get8_putHeader, hiByte_toNat, loByte_toNat]

/-- `APPEND_CRC` leaves the two trailer bytes of the bytes before them. -/
theorem get8_appendCrc_trailer (len : Nat) (s : State) :
    get8 (appendCrc len s) len = trailerFirst s.params (crc16 (frameBytes (appendCrc len s) len)) ∧
      get8 (appendCrc len s) (len + 1) = trailerSecond s.params (crc16 (frameBytes (appendCrc len s) len)) := by
  rw [frameBytes_appendCrc, get8_appendCrc, get8_appendCrc, if_neg (by omega), if_pos rfl, if_pos rfl]
  exact ⟨rfl, rfl⟩

/-- The trailer bytes in both orders of R72, as numbers. -/
theorem trailer_toNat {p : Params} {crc : Word} {b₁ b₂ : Byte}
    (h : b₁ = trailerFirst p crc ∧ b₂ = trailerSecond p crc) (c : Nat) (hc : c = crc.toNat) :
    b₁.toNat = (if p.crcLowFirst then c % 256 else c / 256) ∧
      b₂.toNat = (if p.crcLowFirst then c / 256 else c % 256) := by
  obtain ⟨rfl, rfl⟩ := h
  rw [hc]
  exact ⟨trailerFirst_toNat p crc, trailerSecond_toNat p crc⟩

/-! ## What the build commands answer and put at each offset -/

section
variable (bc : Bool) (fc : Byte) (ra rc : Word) (s : State)

theorem exec_bldRdReq :
    exec (.bldRdReq bc fc ra rc) s = .next ((appendCrc 6 (putHeader bc fc ra rc s)).withResult (some .done)) := by
  rw [exec, execBldRdReq_eq, ← readRequest_eq]

theorem exec_bldWrReq_fits {rc : Word} {s : State} (hf : 9 + 2 * rc.toNat ≤ s.params.fbCap)
    (hv : rc.toNat ≤ s.params.valCap) :
    exec (.bldWrReq bc fc ra rc) s = .next ((buildWriteRequest bc fc ra rc s).withResult (some .done)) := by
  rw [exec, execBldWrReq_fits _ _ _ (Nat.not_lt.2 hf) (Nat.not_lt.2 hv), ← buildWriteRequest_eq]

theorem get8_readRequest_header {j : Nat} (h : j < 6) :
    get8 (appendCrc 6 (putHeader bc fc ra rc s)) j = get8 (putHeader bc fc ra rc s) j := by
  rw [get8_appendCrc, if_neg (by omega), if_neg (by omega)]

theorem get8_writeRequest_putHeader {j : Nat} (h : j < 6) :
    get8 (buildWriteRequest bc fc ra rc s) j = get8 (putHeader bc fc ra rc s) j := by
  rw [get8_writeRequest_header _ _ _ _ _ (by omega), get8_put8_other (by omega)]

theorem get8_writeRequest_byteCount : get8 (buildWriteRequest bc fc ra rc s) 6 = payloadByteCount rc.toNat := by
  rw [get8_writeRequest_header _ _ _ _ _ (by omega), get8_put8_same]

end

/-! ## The two build commands -/

/-- Settles O16: the header is put, `APPEND_CRC` adds the trailer behind it, and no other byte is written. -/
theorem bldRdReqWritesTheReadRequest : Obligations.BldRdReqWritesTheReadRequest := by
  unfold Obligations.BldRdReqWritesTheReadRequest
  refine ⟨fun bc fc ra rc s => ?completes,
    fun w s hop => ⟨fun hz => runCommand_error (decode_nonzeroZ hz) s, fun hz => ?decoded⟩⟩
  case completes =>
    obtain ⟨haddr, hfc, hraHi, hraLo, hrcHi, hrcLo⟩ :=
      header_of_agrees_putHeader fun _ => get8_readRequest_header bc fc ra rc s
    refine ⟨_, exec_bldRdReq bc fc ra rc s, withResult_eq_of_eq_withFb (readRequest_eq bc fc ra rc s) _, ?_⟩
    simp only [get8_withResult]
    exact ⟨haddr, hfc, hraHi, hraLo, hrcHi, hrcLo, trailer_toNat (get8_appendCrc_trailer 6 _),
      fun _ => get8_readRequest_outside bc fc ra rc s⟩
  case decoded => exact runCommand_ok ((decode_ok_iff w _).2 (by simp [hz, hop])) s

/-- Settles O17: the capacity checks come before the first write; past them the header, the byte-count, the payload loop
and `APPEND_CRC` each write their own offsets below `9 + 2n`. -/
theorem bldWrReqWritesTheWriteRequest : Obligations.BldWrReqWritesTheWriteRequest := by
  unfold Obligations.BldWrReqWritesTheWriteRequest
  refine ⟨fun bc fc ra rc s => ⟨fun hf => execBldWrReq_frameOverrun bc fc ra hf,
      fun hf hv => execBldWrReq_valueOverrun bc fc ra (Nat.not_lt.2 hf) hv, fun hf hv => ?completes⟩,
    fun w s hop => ⟨fun hz => runCommand_error (decode_nonzeroZ hz) s, fun hz => ?decoded⟩⟩
  case completes =>
    obtain ⟨haddr, hfc, hraHi, hraLo, hrcHi, hrcLo⟩ :=
      header_of_agrees_putHeader fun _ => get8_writeRequest_putHeader bc fc ra rc s
    refine ⟨_, exec_bldWrReq_fits bc fc ra hf hv, withResult_eq_of_eq_withFb (buildWriteRequest_eq bc fc ra rc s) _,
      ?_⟩
    simp only [get8_withResult, frameBytes_withResult]
    refine ⟨haddr, hfc, hraHi, hraLo, hrcHi, hrcLo, ?byteCount, fun i hi => ?payload,
      trailer_toNat (get8_writeRequest_trailer bc fc ra rc s), fun _ => get8_writeRequest_outside bc fc ra rc s⟩
    case byteCount => rw [get8_writeRequest_byteCount, payloadByteCount_toNat]
    case payload =>
      obtain ⟨hhi, hlo⟩ := get8_writeRequest_payload bc fc ra rc s hi
      rw [hhi, hlo]
      exact ⟨hiByte_toNat _, loByte_toNat _⟩
  case decoded => exact runCommand_ok ((decode_ok_iff w _).2 (by simp [hz, hop])) s

end Sys2Proof.Machine
end

section
/-! The validate commands (R93, R95): `OK` of VAL.WRRSP is the conjunction of its five checks, VAL.RDRSP answers by the
first of its checks that decides, and neither writes anything but the result port. -/

namespace Sys2Proof.Machine

/-- Checks 3 and 4 of VAL.WRRSP compare a 16-bit field byte by byte, the high byte at the lower offset (R68). -/
theorem get16be_eq_iff (s : State) (off : Nat) (v : Word) :
    get16be s off = v ↔ (get8 s off).toNat = v.toNat / 256 ∧ (get8 s (off + 1)).toNat = v.toNat % 256 := by
  rw [get16be, joinBytes_eq_iff, ← BitVec.toNat_inj, ← BitVec.toNat_inj, hiByte_toNat, loByte_toNat]

/-- VAL.WRRSP runs in every state: the header checks decide, and then the CRC over 8 bytes. -/
theorem exec_valWrRsp (bc : Bool) (fc : Byte) (ra rc : Word) (s : State) :
    exec (.valWrRsp bc fc ra rc) s =
      .next (s.withResult (some (.ok (decide (writeResponseHeaderOk bc fc ra rc s) && validateCrc s 8)))) := by
  rw [exec]
  by_cases hheader : writeResponseHeaderOk bc fc ra rc s
  · rw [execValWrRsp_crc hheader, decide_eq_true hheader, Bool.true_and]
  · rw [execValWrRsp_header hheader, decide_eq_false hheader, Bool.false_and]

/-- Settles O20: the answer is the conjunction of the header checks and the CRC check, and each 16-bit check is one of
two bytes. -/
theorem valWrRspChecksTheWriteResponse : Obligations.ValWrRspChecksTheWriteResponse := by
  unfold Obligations.ValWrRspChecksTheWriteResponse
  refine ⟨fun bc fc ra rc s => ⟨_, exec_valWrRsp bc fc ra rc s, ?conjunction⟩,
    fun w s hop => ⟨fun hz => runCommand_error (decode_nonzeroZ hz) s, fun hz => ?decoded⟩⟩
  case conjunction =>
    rw [Bool.and_eq_true, decide_eq_true_iff, writeResponseHeaderOk, get16be_eq_iff, get16be_eq_iff, and_assoc,
      and_assoc, and_assoc, addrSel]
  case decoded => exact runCommand_ok ((decode_ok_iff w _).2 (by simp [hz, hop])) s

/-- Settles O24: the first three checks answer alone when one fails; past them the capacity test comes before the CRC
check. -/
theorem valRdRspChecksTheReadResponse : Obligations.ValRdRspChecksTheReadResponse := by
  unfold Obligations.ValRdRspChecksTheReadResponse
  refine ⟨fun bc fc rc s => ⟨execValRdRsp_prefix,
      fun haddr hfc hcount hover => execValRdRsp_frameOverrun ⟨haddr, hfc, hcount⟩ hover,
      fun haddr hfc hcount hfits => execValRdRsp_crc ⟨haddr, hfc, hcount⟩ (Nat.not_lt.2 hfits)⟩,
    fun w s hop => ⟨fun hz => runCommand_error (decode_nonzeroZ hz) s, fun hz => ?decoded⟩⟩
  case decoded => exact runCommand_ok ((decode_ok_iff w _).2 (by simp [hz, hop])) s

end Sys2Proof.Machine
end

section
/-! The extract command (R98): the payload as numbers in `VAL`, and that nothing else of the state is written. -/

namespace Sys2Proof.Machine

/-- Entry `i` of the payload as a number: the high byte at `3 + 2i`, the low byte behind it. -/
theorem get16be_readPayloadOffset_toNat (s : State) (i : Nat) :
    (get16be s (readPayloadOffset i)).toNat = (get8 s (3 + 2 * i)).toNat * 256 + (get8 s (4 + 2 * i)).toNat := by
  rw [get16be_toNat, readPayloadOffset, show 3 + 2 * i + 1 = 4 + 2 * i by omega]

theorem exec_extract_fits {rc : Word} {s : State} (hf : 3 + 2 * rc.toNat ≤ s.params.fbCap)
    (hv : rc.toNat ≤ s.params.valCap) :
    exec (.extract rc) s = .next ((takePayload rc.toNat s).withResult (some .done)) := by
  rw [exec, execExtract_fits (Nat.not_lt.2 hf) (Nat.not_lt.2 hv), ← takePayload_eq]

/-- Settles O27: the capacity checks come before the first write; past them the payload loop writes `VAL` alone, below
index `n` alone. -/
theorem extractProjectsThePayload : Obligations.ExtractProjectsThePayload := by
  unfold Obligations.ExtractProjectsThePayload
  refine ⟨fun rc s => ⟨fun hf => execExtract_frameOverrun hf, fun hf hv => execExtract_valueOverrun (Nat.not_lt.2 hf) hv,
      fun hf hv => ⟨_, exec_extract_fits hf hv, ?frame, fun i hi => ?extracted, fun i hi => ?untouched⟩⟩,
    fun w s hop => ⟨fun hz => runCommand_error (decode_nonzeroZ hz) s, fun hz => ?decoded⟩⟩
  case frame => exact congrArg (State.withResult · (some .done)) (takePayload_eq rc.toNat s)
  case extracted => rw [getVal_withResult, getVal_takePayload, if_pos hi, get16be_readPayloadOffset_toNat]
  case untouched => rw [getVal_withResult, getVal_takePayload, if_neg (Nat.not_lt.2 hi)]
  case decoded => exact runCommand_ok ((decode_ok_iff w _).2 (by simp [hz, hop])) s

end Sys2Proof.Machine
end

section
/-! The configuration command (R101): SET.SLAVE replaces `SLAVE_ID` and nothing else of the state of R10. -/

namespace Sys2Proof.Machine

/-- Operation code 10 with `z` zero is SET.SLAVE of the `fc` field; `bc`, `ra` and `rc` are not looked at (R58). -/
theorem decode_setSlave {w : CmdWord} (hop : opField w = 10) (hz : zField w = 0) :
    decode w = .ok (.setSlave (fcField w)) :=
  (decode_ok_iff w _).2 (by simp [hz, hop])

/-- Settles O29: SET.SLAVE has no check to fail, and a word of its `op` is illegal only by its `z` field. -/
theorem setSlaveWritesSlaveIdOnly : Obligations.SetSlaveWritesSlaveIdOnly := by
  unfold Obligations.SetSlaveWritesSlaveIdOnly
  refine ⟨exec_setSlave, fun w s hop => ⟨fun hz => runCommand_error (decode_nonzeroZ hz) s, fun hz => ?decoded⟩⟩
  case decoded => exact (runCommand_ok (decode_setSlave hop hz) s).trans (exec_setSlave (fcField w) s)

end Sys2Proof.Machine
end

section
/-! The faults and the result port (R112 to R118): the one way each command ends, by the overrun conditions of the state,
and that a command that faults writes the result port alone. -/

namespace Sys2Proof.Machine

/-! ## `STATUS` of a result (R112) -/

theorem CmdFault.code_injective : Function.Injective CmdFault.code := by
  intro f g
  cases f <;> cases g <;> decide

theorem CmdFault.code_ne_zero (f : CmdFault) : f.code ≠ 0 := by
  cases f <;> decide

theorem Result.status_eq_zero_iff (r : Result) : r.status = 0 ↔ ∀ f, r ≠ .fault f := by
  cases r with
  | fault f => exact iff_of_false f.code_ne_zero fun h => h f rfl
  | _ => exact iff_of_true rfl fun _ => Result.noConfusion

theorem Result.status_eq_code_iff (r : Result) (f : CmdFault) : r.status = f.code ↔ r = .fault f := by
  cases r with
  | fault g => rw [Result.fault.injEq]; exact CmdFault.code_injective.eq_iff
  | _ => exact iff_of_false f.code_ne_zero.symm Result.noConfusion

/-! ## A command that faults (R116) -/

/-- A command that faults took none of the ways of `exec_cases` that write state. -/
theorem exec_of_fault {i : Instr} {s t : State} {f : CmdFault} (h : exec i s = .next t)
    (hr : t.result = some (.fault f)) : t = s.withResult (some (.fault f)) := by
  obtain ⟨r, rfl⟩ | ⟨_, _, _, _, -, rfl⟩ | ⟨_, _, _, _, -, -, -, rfl⟩ | ⟨_, -, -, -, rfl⟩ | ⟨_, -, rfl⟩ := exec_cases h
  · cases hr; rfl
  all_goals cases hr

theorem runCommand_of_fault {w : CmdWord} {s t : State} {f : CmdFault} (h : runCommand w s = .next t)
    (hr : t.result = some (.fault f)) : t = s.withResult (some (.fault f)) := by
  obtain ⟨i, -, hi⟩ | ⟨-, rfl⟩ := runCommand_cases h
  · exact exec_of_fault hi hr
  · cases hr; rfl

/-- No command word reads the result port. -/
theorem runCommand_withResult (w : CmdWord) (s : State) (r : Option Result) :
    runCommand w (s.withResult r) = runCommand w s := by
  cases hd : decode w with
  | ok i => rw [runCommand_ok hd, runCommand_ok hd, exec_withResult]
  | error e => rw [runCommand_error hd, runCommand_error hd]; rfl

/-- Settles O31: a fault leaves the state it found with that fault on the result port, and no command word reads the
port. -/
theorem faultsArePreciseAndNotSticky : Obligations.FaultsArePreciseAndNotSticky := by
  unfold Obligations.FaultsArePreciseAndNotSticky
  intro w s t f h hr
  obtain rfl := runCommand_of_fault h hr
  exact ⟨rfl, rfl, fun w' => runCommand_withResult w' s _⟩

/-! ## How each command ends (R112 to R114, R118) -/

/-- The commands that return a `LEN` (R16). -/
abbrev lenCommands : List Mnemonic := [.lenRdReq, .lenRdRsp, .lenWrReq, .lenWrRsp]

/-- The commands that return an `OK` (R16). -/
abbrev valCommands : List Mnemonic := [.valWrRsp, .valRdRsp]

/-- Which commands a result is the answer of, where no fault is reported: `LEN`, `OK`, or neither (R16). -/
@[simp] def Result.isAnswerOf : Result → Mnemonic → Prop
  | .done, m => m ∉ lenCommands ∧ m ∉ valCommands
  | .len _, m => m ∈ lenCommands
  | .ok _, m => m ∈ valCommands
  | .fault _, _ => False

/-- The result a command ends with, by the overrun conditions in their order (R113, R114, R118). -/
inductive EndsWith (i : Instr) (s : State) : Result → Prop where
  | frameOverrun (hf : overrunsFrame i s) : EndsWith i s (.fault .frameOverrun)
  | valueOverrun (hf : ¬ overrunsFrame i s) (hv : overrunsValues i s) : EndsWith i s (.fault .valueOverrun)
  | answers {r : Result} (hf : ¬ overrunsFrame i s) (hv : ¬ overrunsValues i s) (hr : r.isAnswerOf i.mnemonic) :
      EndsWith i s r

/-- Every command completes and ends as `EndsWith` says. -/
theorem exec_endsWith (i : Instr) (s : State) :
    ∃ t r, exec i s = .next t ∧ t.result = some r ∧ EndsWith i s r := by
  cases i with
  | lenRdReq => exact ⟨_, _, exec_lenRdReq s, rfl, .answers id id (by simp [Instr.mnemonic])⟩
  | lenRdRsp rc => exact ⟨_, _, exec_lenRdRsp rc s, rfl, .answers id id (by simp [Instr.mnemonic])⟩
  | lenWrReq rc => exact ⟨_, _, exec_lenWrReq rc s, rfl, .answers id id (by simp [Instr.mnemonic])⟩
  | lenWrRsp => exact ⟨_, _, exec_lenWrRsp s, rfl, .answers id id (by simp [Instr.mnemonic])⟩
  | bldRdReq bc fc ra rc => exact ⟨_, _, exec_bldRdReq bc fc ra rc s, rfl, .answers id id (by simp [Instr.mnemonic])⟩
  | bldWrReq bc fc ra rc =>
    by_cases hf : s.params.fbCap < 9 + 2 * rc.toNat
    · exact ⟨_, _, execBldWrReq_frameOverrun bc fc ra hf, rfl, .frameOverrun hf⟩
    · by_cases hv : s.params.valCap < rc.toNat
      · exact ⟨_, _, execBldWrReq_valueOverrun bc fc ra hf hv, rfl, .valueOverrun hf hv⟩
      · exact ⟨_, _, execBldWrReq_fits bc fc ra hf hv, rfl, .answers hf hv (by simp [Instr.mnemonic])⟩
  | valWrRsp bc fc ra rc => exact ⟨_, _, exec_valWrRsp bc fc ra rc s, rfl, .answers id id (by simp [Instr.mnemonic])⟩
  | valRdRsp bc fc rc =>
    by_cases hp : readResponsePrefixOk bc fc rc s
    · have ⟨haddr, hfc, hcount⟩ := hp
      by_cases hf : s.params.fbCap < 5 + 2 * rc.toNat
      · exact ⟨_, _, execValRdRsp_frameOverrun hp hf, rfl, .frameOverrun ⟨haddr, hfc, hcount, hf⟩⟩
      · exact ⟨_, _, execValRdRsp_crc hp hf, rfl, .answers (fun ⟨_, _, _, h⟩ => hf h) id (by simp [Instr.mnemonic])⟩
    · exact ⟨_, _, execValRdRsp_prefix hp, rfl,
        .answers (fun ⟨haddr, hfc, hcount, _⟩ => hp ⟨haddr, hfc, hcount⟩) id (by simp [Instr.mnemonic])⟩
  | extract rc =>
    by_cases hf : s.params.fbCap < 3 + 2 * rc.toNat
    · exact ⟨_, _, execExtract_frameOverrun hf, rfl, .frameOverrun hf⟩
    · by_cases hv : s.params.valCap < rc.toNat
      · exact ⟨_, _, execExtract_valueOverrun hf hv, rfl, .valueOverrun hf hv⟩
      · exact ⟨_, _, execExtract_fits hf hv, rfl, .answers hf hv (by simp [Instr.mnemonic])⟩
  | setSlave newId => exact ⟨_, _, exec_setSlave newId s, rfl, .answers id id (by simp [Instr.mnemonic])⟩

section
variable {i : Instr} {s : State} {r : Result}

theorem EndsWith.frameOverrun_iff (h : EndsWith i s r) : r = .fault .frameOverrun ↔ overrunsFrame i s := by
  cases h with
  | frameOverrun hf => exact iff_of_true rfl hf
  | valueOverrun hf hv => exact iff_of_false (by decide) hf
  | answers hf hv hr => exact iff_of_false (by rintro rfl; exact hr) hf

theorem EndsWith.valueOverrun_iff (h : EndsWith i s r) :
    r = .fault .valueOverrun ↔ overrunsValues i s ∧ ¬ overrunsFrame i s := by
  cases h with
  | frameOverrun hf => exact iff_of_false (by decide) fun h => h.2 hf
  | valueOverrun hf hv => exact iff_of_true rfl ⟨hv, hf⟩
  | answers hf hv hr => exact iff_of_false (by rintro rfl; exact hr) fun h => hv h.1

theorem EndsWith.ne_illegalCmd (h : EndsWith i s r) : r ≠ .fault .illegalCmd := by
  rintro rfl
  cases h with
  | answers hf hv hr => exact hr

end

/-- Settles O32: every command ends as `EndsWith` says, which decides by the overrun conditions in their order. -/
theorem faultConditionsAndPriority : Obligations.FaultConditionsAndPriority := by
  unfold Obligations.FaultConditionsAndPriority
  refine ⟨fun i s => ?_, fun w e s t hd h => ?_⟩
  · obtain ⟨t, r, ht, hres, hends⟩ := exec_endsWith i s
    refine ⟨t, ht, ?_⟩
    rw [hres, Option.some_inj, Option.some_inj, ne_eq, Option.some_inj]
    exact ⟨hends.frameOverrun_iff, hends.valueOverrun_iff, hends.ne_illegalCmd⟩
  · rw [runCommand_error hd] at h
    cases h; rfl

/-! ## Where `LEN` and `OK` are there (R16, R112) -/

theorem not_mem_lenCommands_of_overrun {i : Instr} {s : State} (h : overrunsFrame i s ∨ overrunsValues i s) :
    i.mnemonic ∉ lenCommands := by
  cases i with
  | lenRdReq => exact h.elim False.elim False.elim
  | lenRdRsp rc => exact h.elim False.elim False.elim
  | lenWrReq rc => exact h.elim False.elim False.elim
  | lenWrRsp => exact h.elim False.elim False.elim
  | _ => simp [Instr.mnemonic]

theorem not_mem_lenCommands_of_mem_valCommands {m : Mnemonic} (h : m ∈ valCommands) : m ∉ lenCommands := by
  revert m
  decide

section
variable {i : Instr} {s : State} {r : Result}

theorem EndsWith.lenField_iff (h : EndsWith i s r) : (∃ v, r.lenField = some v) ↔ i.mnemonic ∈ lenCommands := by
  cases h with
  | frameOverrun hf => exact iff_of_false nofun (not_mem_lenCommands_of_overrun (.inl hf))
  | valueOverrun hf hv => exact iff_of_false nofun (not_mem_lenCommands_of_overrun (.inr hv))
  | answers hf hv hr =>
    cases r with
    | done => exact iff_of_false nofun hr.1
    | len v => exact iff_of_true ⟨v, rfl⟩ hr
    | ok b => exact iff_of_false nofun (not_mem_lenCommands_of_mem_valCommands hr)
    | fault f => exact hr.elim

theorem EndsWith.okField_iff (h : EndsWith i s r) :
    (∃ b, r.okField = some b) ↔ i.mnemonic ∈ valCommands ∧ r.status = 0 := by
  cases h with
  | frameOverrun hf => exact iff_of_false nofun fun h => absurd h.2 (by decide)
  | valueOverrun hf hv => exact iff_of_false nofun fun h => absurd h.2 (by decide)
  | answers hf hv hr =>
    cases r with
    | done => exact iff_of_false nofun fun h => hr.2 h.1
    | len v => exact iff_of_false nofun fun h => not_mem_lenCommands_of_mem_valCommands h.1 hr
    | ok b => exact iff_of_true ⟨b, rfl⟩ ⟨hr, rfl⟩
    | fault f => exact hr.elim

end

/-- Every command word completes with one result; where it decodes, the result its instruction ends with. -/
theorem runCommand_endsWith (w : CmdWord) (s : State) :
    ∃ t r, runCommand w s = .next t ∧ t.result = some r ∧ ∀ i, decode w = .ok i → EndsWith i s r := by
  cases hd : decode w with
  | ok i =>
    obtain ⟨t, r, ht, hres, hends⟩ := exec_endsWith i s
    exact ⟨t, r, (runCommand_ok hd s).trans ht, hres, fun j hj => Except.ok.inj hj ▸ hends⟩
  | error e => exact ⟨_, _, runCommand_error hd s, rfl, nofun⟩

/-- Settles O33: the codes of the faults are distinct and nonzero, and `EndsWith` says which result each command ends
with. -/
theorem everyCommandReturnsOneResult : Obligations.EveryCommandReturnsOneResult := by
  unfold Obligations.EveryCommandReturnsOneResult
  intro w s
  obtain ⟨t, r, ht, hres, hends⟩ := runCommand_endsWith w s
  exact ⟨t, r, ht, hres, r.status_eq_zero_iff, r.status_eq_code_iff .illegalCmd, r.status_eq_code_iff .frameOverrun,
    r.status_eq_code_iff .valueOverrun, fun i hi => ⟨(hends i hi).lenField_iff, (hends i hi).okField_iff⟩⟩

end Sys2Proof.Machine
end

section
/-! The encoder and the assembler (R55, R60): the decoder reads each field of an encoded word back, and a well-formed line
is its mnemonic with the values of the operands the mnemonic uses, so that the line and the instruction give each other. -/

namespace Sys2Proof

/-! ## The decoder after the encoder -/

/-- The decoder reads `op`, `z` and the used operands of an encoded word as the encoder put them. -/
theorem decode_encode (i : Instr) : decode (encode i) = .ok i := by
  rw [decode_ok_iff]
  cases i <;> simp [encode, opField_commandWord, zField_commandWord, bcField_commandWord, fcField_commandWord,
    raField_commandWord, rcField_commandWord]

/-- Settles O3: each field of a command word is read back with the value the encoder gave it. -/
theorem decodeOfEncodeIsIdentity : Obligations.DecodeOfEncodeIsIdentity := by
  unfold Obligations.DecodeOfEncodeIsIdentity
  exact decode_encode

/-! ## The operands of a well-formed line -/

/-- Looking up a key of its own returns each entry of a list whose keys are distinct. -/
theorem find?_key_of_mem {ops : List (OperandName × Nat)} (hnodup : (ops.map Prod.fst).Nodup)
    {x : OperandName × Nat} (hx : x ∈ ops) : ops.find? (fun y => y.1 = x.1) = some x := by
  induction ops with
  | nil => cases hx
  | cons y ys ih =>
    obtain ⟨hy, hys⟩ := List.nodup_cons.1 hnodup
    rcases List.mem_cons.1 hx with rfl | hmem
    · simp
    · have hne : y.1 ≠ x.1 := fun h => hy (h ▸ List.mem_map_of_mem hmem)
      rw [List.find?_cons_of_neg (by simpa using hne), ih hys hmem]

theorem Mnemonic.operands_nodup (m : Mnemonic) : m.operands.Nodup := by
  cases m <;> decide

section
variable {l : AsmLine} (h : l.wf)
include h

/-- The value a well-formed line gives an operand is the one it writes for it. -/
theorem AsmLine.value_of_mem {x : OperandName × Nat} (hx : x ∈ l.operands) : l.value x.1 = x.2 := by
  have hnodup : (l.operands.map Prod.fst).Nodup := h.1 ▸ l.mnemonic.operands_nodup
  rw [AsmLine.value, find?_key_of_mem hnodup hx]

/-- A well-formed line is its mnemonic with a value for each used operand, in order (R60). -/
theorem AsmLine.eq_of_wf : l = ⟨l.mnemonic, l.mnemonic.operands.map fun o => (o, l.value o)⟩ := by
  have hops : l.operands = l.mnemonic.operands.map fun o => (o, l.value o) := by
    rw [← h.1, List.map_map]
    exact (List.map_id'' (fun x => rfl) l.operands).symm.trans
      (List.map_congr_left fun x hx => Prod.ext rfl (AsmLine.value_of_mem h hx).symm)
  rw [← hops]

theorem AsmLine.value_lt {o : OperandName} (ho : o ∈ l.mnemonic.operands) : l.value o < 2 ^ o.width := by
  obtain ⟨x, hx, rfl⟩ := List.mem_map.1 (h.1 ▸ ho)
  rw [AsmLine.value_of_mem h hx]
  exact h.2 x hx

end

/-! ## Assembling and disassembling -/

theorem bool_toNat_beq_one {n : Nat} (h : n < 2) : (n == 1).toNat = n := by
  interval_cases n <;> rfl

/-- The line of the instruction a well-formed line names is that line. -/
theorem disassemble_instr {l : AsmLine} (h : l.wf) : disassemble l.instr = l := by
  have hv : ∀ o ∈ l.mnemonic.operands, l.value o < 2 ^ o.width := fun _ => AsmLine.value_lt h
  conv_rhs => rw [AsmLine.eq_of_wf h]
  rw [AsmLine.instr]
  generalize l.mnemonic = m at hv
  cases m <;> simp [Mnemonic.operands, OperandName.width] at hv <;>
    simp [disassemble, Mnemonic.operands, bool_toNat_beq_one, Nat.mod_eq_of_lt, hv]

/-- The line of an instruction names that instruction. -/
theorem instr_disassemble (i : Instr) : (disassemble i).instr = i := by
  cases i <;> simp [disassemble, AsmLine.instr, AsmLine.value]

/-- The line of an instruction is well formed: an operand is as wide as the field it is written for. -/
theorem disassemble_wf (i : Instr) : (disassemble i).wf := by
  have hbyte : ∀ v : Byte, v.toNat < 256 := BitVec.isLt
  have hword : ∀ v : Word, v.toNat < 65536 := BitVec.isLt
  cases i <;> simp [disassemble, AsmLine.wf, Mnemonic.operands, OperandName.width, hbyte, hword, Bool.toNat_le]

theorem assemble_of_wf {l : AsmLine} (h : l.wf) : assemble l = some (encode l.instr) := if_pos h

/-- Settles O7: a well-formed line and the instruction it names determine each other, and the encoder and the decoder give
the word of the one for the other. -/
theorem assemblerLinesAreCommandWords : Obligations.AssemblerLinesAreCommandWords := by
  unfold Obligations.AssemblerLinesAreCommandWords
  refine ⟨fun l h => ?_, fun l h => if_neg h, fun i => ⟨disassemble_wf i, ?_⟩⟩
  · exact ⟨encode l.instr, l.instr, assemble_of_wf h, decode_encode l.instr, disassemble_instr h⟩
  · rw [assemble_of_wf (disassemble_wf i), instr_disassemble]

end Sys2Proof
end

section
/-! The invariant (R5, R12, R17, R18, R35): it holds after reset, every command, every host action and every step keeps
it, and with it `BROADCAST_ID` keeps the value reset loaded. -/

namespace Sys2Proof.Machine

/-! ## Reset -/

theorem resetWith_inv {p : Params} (hp : p.wf) (k : Nat) : (State.resetWith p k).Inv where
  fbCapOk := hp
  broadcastFixed := rfl
  fbWf := Memory.nil_wf p.fbCap
  valWf := Memory.nil_wf p.valCap

theorem vectorParams_wf : Config.vectorParams.wf := by decide

/-! ## Commands, host actions, steps -/

section
variable {s : State} (hs : s.Inv)
include hs

theorem State.Inv.withFb {m : List Host.Cell} (hm : Memory.wf s.params.fbCap m) : (s.withFb m).Inv :=
  ⟨hs.fbCapOk, hs.broadcastFixed, hm, hs.valWf⟩

theorem State.Inv.withVal {m : List (Nat × Word)} (hm : Memory.wf s.params.valCap m) : (s.withVal m).Inv :=
  ⟨hs.fbCapOk, hs.broadcastFixed, hs.fbWf, hm⟩

theorem State.Inv.withSlaveId (id : Byte) : (s.withSlaveId id).Inv :=
  ⟨hs.fbCapOk, hs.broadcastFixed, hs.fbWf, hs.valWf⟩

theorem State.Inv.withResult (r : Option Result) : (s.withResult r).Inv :=
  ⟨hs.fbCapOk, hs.broadcastFixed, hs.fbWf, hs.valWf⟩

theorem State.Inv.withHostRead (d : Option HostRead) : (s.withHostRead d).Inv :=
  ⟨hs.fbCapOk, hs.broadcastFixed, hs.fbWf, hs.valWf⟩

theorem State.Inv.withPending (q : List HostAction) : (s.withPending q).Inv :=
  ⟨hs.fbCapOk, hs.broadcastFixed, hs.fbWf, hs.valWf⟩

end

theorem putHeader_fb_wf {cap : Nat} {s : State} (h : Memory.wf cap s.fb) (hcap : 6 ≤ cap) (bc : Bool) (fc : Byte)
    (ra rc : Word) : Memory.wf cap (putHeader bc fc ra rc s).fb :=
  put16be_fb_wf (put16be_fb_wf (put8_fb_wf (put8_fb_wf h (by omega)) (by omega)) (by omega)) (by omega)

theorem buildWriteRequest_fb_wf {cap : Nat} {s : State} {rc : Word} (h : Memory.wf cap s.fb)
    (hcap : 9 + 2 * rc.toNat ≤ cap) (bc : Bool) (fc : Byte) (ra : Word) :
    Memory.wf cap (buildWriteRequest bc fc ra rc s).fb :=
  appendCrc_fb_wf (putPayload_fb_wf (put8_fb_wf (putHeader_fb_wf h (by omega) bc fc ra rc) (by omega)) (by omega))
    (by rw [writeRequestLength]; omega)

theorem readRequest_fb_wf {cap : Nat} {s : State} (h : Memory.wf cap s.fb) (hcap : 8 ≤ cap) (bc : Bool) (fc : Byte)
    (ra rc : Word) : Memory.wf cap (appendCrc 6 (putHeader bc fc ra rc s)).fb :=
  appendCrc_fb_wf (putHeader_fb_wf h (by omega) bc fc ra rc) (by omega)

section
variable {s t : State} (hs : s.Inv)
include hs

theorem exec_keeps_inv {i : Instr} (h : exec i s = .next t) : t.Inv := by
  obtain ⟨r, rfl⟩ | ⟨bc, fc, ra, rc, -, rfl⟩ | ⟨bc, fc, ra, rc, -, hfits, -, rfl⟩ | ⟨rc, -, -, hfits, rfl⟩ | ⟨id, -, rfl⟩ :=
    exec_cases h
  · exact hs.withResult _
  · exact (hs.withFb (readRequest_fb_wf hs.fbWf hs.fbCapOk bc fc ra rc)).withResult _
  · exact (hs.withFb (buildWriteRequest_fb_wf hs.fbWf hfits bc fc ra)).withResult _
  · exact (hs.withVal (takePayload_val_wf hs.valWf hfits)).withResult _
  · exact (hs.withSlaveId id).withResult _

theorem runCommand_keeps_inv {w : CmdWord} (h : runCommand w s = .next t) : t.Inv := by
  obtain ⟨i, -, hi⟩ | ⟨-, rfl⟩ := runCommand_cases h
  · exact exec_keeps_inv hs hi
  · exact hs.withResult _

theorem hostReset_inv : (hostReset s).Inv :=
  (resetWith_inv hs.fbCapOk (s.epoch + 1)).withPending s.pending

theorem perform_keeps_inv {a : HostAction} (h : perform a s = .next t) : t.Inv := by
  obtain ⟨w, -, hw⟩ | ⟨off, b, -, hoff, rfl⟩ | ⟨off, -, -, rfl⟩ | ⟨i, v, -, hi, rfl⟩ | ⟨i, -, -, rfl⟩ | ⟨-, rfl⟩ :=
    perform_cases h
  · exact runCommand_keeps_inv hs hw
  · exact hs.withFb (put8_fb_wf hs.fbWf hoff)
  · exact hs.withHostRead _
  · exact hs.withVal (putVal_val_wf hs.valWf hi)
  · exact hs.withHostRead _
  · exact hostReset_inv hs

theorem accept_inv (rest : List HostAction) : (accept rest s).Inv :=
  ((hs.withPending rest).withResult none).withHostRead none

theorem step_keeps_inv (h : step s = .next t) : t.Inv := by
  obtain ⟨-, rfl⟩ | ⟨a, rest, -, ha⟩ := step_cases h
  · exact hs
  · exact perform_keeps_inv (accept_inv hs rest) ha

end

/-! ## What no action of the host touches -/

section
variable {s t : State}

theorem runCommand_unchanged {w : CmdWord} (h : runCommand w s = .next t) :
    t.params = s.params ∧ t.pending = s.pending := by
  obtain ⟨i, -, hi⟩ | ⟨-, rfl⟩ := runCommand_cases h
  · obtain ⟨hparams, -, -, hpending, -⟩ := exec_unchanged hi
    exact ⟨hparams, hpending⟩
  · exact ⟨rfl, rfl⟩

/-- Nothing the host does writes the parameters, and an action leaves the further actions as they were. -/
theorem perform_unchanged {a : HostAction} (h : perform a s = .next t) :
    t.params = s.params ∧ t.pending = s.pending := by
  obtain ⟨w, -, hw⟩ | ⟨off, b, -, -, rfl⟩ | ⟨off, -, -, rfl⟩ | ⟨i, v, -, -, rfl⟩ | ⟨i, -, -, rfl⟩ | ⟨-, rfl⟩ :=
    perform_cases h
  · exact runCommand_unchanged hw
  all_goals exact ⟨rfl, rfl⟩

theorem step_params (h : step s = .next t) : t.params = s.params := by
  obtain ⟨-, rfl⟩ | ⟨a, rest, -, ha⟩ := step_cases h
  · rfl
  · exact (perform_unchanged ha).1

end

/-! ## The statements about the invariant -/

/-- Settles O48: a command writes below the capacities by its own checks or by `FB_CAP ≥ 8`, and a host action by the
range of its location; reset builds the memories anew. -/
theorem everyStepKeepsTheInvariant : Obligations.EveryStepKeepsTheInvariant := by
  unfold Obligations.EveryStepKeepsTheInvariant
  exact fun s t hs h => ⟨step_keeps_inv hs h, step_params h⟩

/-- Settles O47: the memories after reset are empty, and the parameters of the test vectors meet the constraint. -/
theorem resetSatisfiesTheInvariant : Obligations.ResetSatisfiesTheInvariant := by
  unfold Obligations.ResetSatisfiesTheInvariant
  exact ⟨fun p k hp => resetWith_inv hp k, resetWith_inv vectorParams_wf 0⟩

/-- Settles O38: a command does not touch the register, and a step keeps it equal to a parameter that nothing writes. -/
theorem broadcastIdIsImmutable : Obligations.BroadcastIdIsImmutable := by
  unfold Obligations.BroadcastIdIsImmutable
  refine ⟨State.resetWith_broadcastId, addrSel_true, fun i s t h => ?command, fun s t hs h => ?step⟩
  case command =>
    obtain ⟨-, hbroadcast, -⟩ := exec_unchanged h
    exact hbroadcast
  case step => rw [(step_keeps_inv hs h).broadcastFixed, step_params h, hs.broadcastFixed]

end Sys2Proof.Machine
end

section
/-! One step (R30, R40, R42, R55, R126, R130): which action it performs and in which state, that an action in range is
performed and one out of range stops the machine, and which actions write `SLAVE_ID`. -/

namespace Sys2Proof.Machine

/-! ## Which action a step performs -/

/-- `decodeTableWord` decodes the bits of the number that `withFetchWord` presents. -/
theorem decode_of_decodeTableWord {nbits w : Nat} {i : Instr} (h : decodeTableWord nbits w = some i) :
    decode (BitVec.ofNat 48 (w % 2 ^ nbits)) = .ok i := by
  unfold decodeTableWord at h
  split at h
  · cases h; assumption
  · cases h

/-- Settles O1: the step performs the command, which runs the instruction the word decodes to. -/
theorem commandStepRunsDecodedInstruction : Obligations.CommandStepRunsDecodedInstruction := by
  unfold Obligations.CommandStepRunsDecodedInstruction
  refine ⟨fun s w rest hp => ⟨fun i hi => ?_, fun e he => ?_⟩, fun s nbits w i hi => ?_⟩
  · rw [step_of_pending_cons hp]
    exact runCommand_ok hi _
  · rw [step_of_pending_cons hp]
    exact runCommand_error he _
  · rw [step_of_pending_cons (show (s.withFetchWord nbits w).pending = _ :: s.pending from rfl)]
    exact runCommand_ok (decode_of_decodeTableWord hi) _

/-- Settles O40: the step takes the action from the pending ones alone, and no action touches the further ones. -/
theorem dataSpacesNeverChooseTheCommand : Obligations.DataSpacesNeverChooseTheCommand := by
  unfold Obligations.DataSpacesNeverChooseTheCommand
  intro s a rest fb val hp
  have hstep : step { s with fb := fb, val := val } = perform a (accept rest { s with fb := fb, val := val }) :=
    step_of_pending_cons hp
  exact ⟨hstep, fun t ht => (perform_unchanged (hstep.symm.trans ht)).2⟩

/-- Settles O45: the action builds the state after reset from the parameters, with the further actions pending. -/
theorem resetAgainIsAFreshConstruction : Obligations.ResetAgainIsAFreshConstruction := by
  unfold Obligations.ResetAgainIsAFreshConstruction
  intro s rest hp
  rw [step_of_pending_cons hp]
  rfl

/-- Settles O46: with no action pending there is none to perform. -/
theorem idleBlockHoldsItsState : Obligations.IdleBlockHoldsItsState := by
  unfold Obligations.IdleBlockHoldsItsState
  exact fun s hp => step_of_pending_nil hp

/-! ## Actions in range and out of range -/

theorem runCommand_completes (w : CmdWord) (s : State) : ∃ t, runCommand w s = .next t := by
  obtain ⟨t, -, ht, -⟩ := runCommand_endsWith w s
  exact ⟨t, ht⟩

/-- An action that names a location that exists is performed (R40). -/
theorem perform_completes {a : HostAction} {s : State} (h : a.wf s.params = true) : ∃ t, perform a s = .next t := by
  cases a with
  | command w => exact runCommand_completes w s
  | wrFb off b => exact ⟨_, perform_wrFb (of_decide_eq_true h) b⟩
  | rdFb off => exact ⟨_, perform_rdFb (of_decide_eq_true h)⟩
  | wrVal i v => exact ⟨_, perform_wrVal (of_decide_eq_true h) v⟩
  | rdVal i => exact ⟨_, perform_rdVal (of_decide_eq_true h)⟩
  | reset => exact ⟨_, rfl⟩

/-- Settles O49: the action of the step is in range, and the further ones stay as they are, as do the capacities. -/
theorem inBoundsActionsNeverStopTheMachine : Obligations.InBoundsActionsNeverStopTheMachine := by
  unfold Obligations.InBoundsActionsNeverStopTheMachine
  intro s hs
  cases hp : s.pending with
  | nil => exact ⟨s, step_of_pending_nil hp, hs⟩
  | cons a rest =>
    rw [State.hostInBounds, hp, List.forall_mem_cons] at hs
    obtain ⟨ha, hrest⟩ := hs
    obtain ⟨t, ht⟩ := perform_completes (s := accept rest s) ha
    obtain ⟨hparams, hpending⟩ := perform_unchanged ht
    refine ⟨t, (step_of_pending_cons hp).trans ht, ?_⟩
    rw [State.hostInBounds, hparams, hpending]
    exact hrest

/-- Settles O50: each action compares its location with the capacity of its space first. -/
theorem outOfRangeHostActionsStop : Obligations.OutOfRangeHostActionsStop := by
  unfold Obligations.OutOfRangeHostActionsStop
  exact fun s => ⟨fun off b h => if_neg (Nat.not_lt.2 h), fun off h => if_neg (Nat.not_lt.2 h),
    fun i v h => if_neg (Nat.not_lt.2 h), fun i h => if_neg (Nat.not_lt.2 h)⟩

/-! ## Who writes `SLAVE_ID` (R11) -/

/-- A command word leaves `SLAVE_ID` unchanged, or is a SET.SLAVE and leaves its identifier there. -/
theorem runCommand_slaveId {w : CmdWord} {s t : State} (h : runCommand w s = .next t) :
    t.slaveId = s.slaveId ∨ ∃ id, decode w = .ok (.setSlave id) ∧ t.slaveId = id := by
  obtain ⟨i, hw, hi⟩ | ⟨-, rfl⟩ := runCommand_cases h
  · by_cases hset : ∃ id, i = .setSlave id
    · obtain ⟨id, rfl⟩ := hset
      exact .inr ⟨id, hw, exec_slaveId hi⟩
    · rw [exec_slaveId hi, slaveIdAfter_of_ne_setSlave _ (not_exists.1 hset)]
      exact .inl rfl
  · exact .inl rfl

/-- Settles O39: among the host's actions only a command and reset write the register, and of the commands SET.SLAVE. -/
theorem onlySetSlaveAndResetWriteSlaveId : Obligations.OnlySetSlaveAndResetWriteSlaveId := by
  unfold Obligations.OnlySetSlaveAndResetWriteSlaveId
  intro s t h
  obtain ⟨-, rfl⟩ | ⟨a, rest, hp, ha⟩ := step_cases h
  · exact .inl rfl
  · obtain ⟨w, rfl, hw⟩ | ⟨off, b, -, -, rfl⟩ | ⟨off, -, -, rfl⟩ | ⟨i, v, -, -, rfl⟩ | ⟨i, -, -, rfl⟩ | ⟨rfl, rfl⟩ :=
      perform_cases ha
    case inl =>
      obtain hsame | ⟨id, hid, ht⟩ := runCommand_slaveId hw
      · exact .inl hsame
      · exact .inr (.inl ⟨w, rest, id, hp, hid, ht⟩)
    case inr.inr.inr.inr.inr => exact .inr (.inr ⟨rest, hp, rfl⟩)
    all_goals exact .inl rfl

/-! ## `HOST.LOADFB` (R60) -/

/-- A run of one step more: the first action is performed, then the rest of the run. -/
theorem run_succ_of_step {s t : State} (h : step s = .next t) (k : Nat) : core.run (k + 1) s = core.run k t := by
  have hstep : core.step s = .next t := h
  simp only [Host.Core.run, hstep]

/-- From `s` to `t` the bytes were written to `FB` from offset `off` up, with `rest` left pending: nothing else changed
but the ports. -/
structure PlacesBytes (off : Nat) (bytes : List Byte) (rest : List HostAction) (s t : State) : Prop where
  inside : ∀ (i : Nat) (hi : i < bytes.length), get8 t (off + i) = bytes[i]
  outside : ∀ j, j < off ∨ off + bytes.length ≤ j → get8 t j = get8 s j
  frame : t = { s with fb := t.fb, pending := rest, result := t.result, hostRead := t.hostRead }

theorem PlacesBytes.nil (off : Nat) (s : State) : PlacesBytes off [] s.pending s s where
  inside _ hi := absurd hi (Nat.not_lt_zero _)
  outside _ _ := rfl
  frame := rfl

/-- The first byte is written, the others behind it. -/
theorem PlacesBytes.cons {off : Nat} {b : Byte} {bs : List Byte} {rest q : List HostAction} {s t : State}
    (h : PlacesBytes (off + 1) bs rest (put8 off b (accept q s)) t) : PlacesBytes off (b :: bs) rest s t where
  inside i hi := by
    cases i with
    | zero => exact (h.outside off (.inl (Nat.lt_succ_self off))).trans (get8_put8_same off b _)
    | succ i =>
      rw [show off + (i + 1) = off + 1 + i by omega]
      exact h.inside i (Nat.lt_of_succ_lt_succ hi)
  outside j hj := by
    rw [List.length_cons] at hj
    exact (h.outside j (by omega)).trans (get8_put8_other (by omega) b _)
  frame := by
    conv_lhs => rw [h.frame]
    rfl

/-- One step per byte: each write is the next action, and its offset is below the capacity. -/
theorem run_loadFb (bytes : List Byte) {off : Nat} {rest : List HostAction} {s : State}
    (hp : s.pending = HostAction.loadFb off bytes ++ rest) (hcap : off + bytes.length ≤ s.params.fbCap) :
    ∃ t, core.run bytes.length s = .next t ∧ PlacesBytes off bytes rest s t := by
  induction bytes generalizing off s with
  | nil =>
    obtain rfl : s.pending = rest := hp
    exact ⟨s, rfl, .nil off s⟩
  | cons b bs ih =>
    rw [List.length_cons] at hcap
    have hoff : off < (accept (HostAction.loadFb (off + 1) bs ++ rest) s).params.fbCap := by
      rw [accept_params]; omega
    have hstep : step s = .next (put8 off b (accept (HostAction.loadFb (off + 1) bs ++ rest) s)) := by
      rw [step_of_pending_cons hp]
      exact perform_wrFb hoff b
    obtain ⟨t, hrun, hplaces⟩ := ih (s := put8 off b (accept _ s)) rfl
      (show off + 1 + bs.length ≤ s.params.fbCap by omega)
    exact ⟨t, (run_succ_of_step hstep bs.length).trans hrun, hplaces.cons⟩

/-- Settles O42: the abbreviation starts at offset 0, so that the frame's bytes are the ones written. -/
theorem loadFbPlacesAFrame : Obligations.LoadFbPlacesAFrame := by
  unfold Obligations.LoadFbPlacesAFrame
  intro bytes s rest hp hcap
  obtain ⟨t, hrun, hplaces⟩ := run_loadFb bytes hp (by omega)
  refine ⟨t, hrun, ?pending, ?bytes, fun j hj => hplaces.outside j (.inr (by omega)), hplaces.frame⟩
  case pending => rw [hplaces.frame]
  case bytes =>
    refine (frameBytes_eq_iff t bytes).2 fun j hj => ?_
    rw [← hplaces.inside j hj, Nat.zero_add]

end Sys2Proof.Machine
end

section
/-! Storage and primitives (R10, R20, R72, R73): a memory in canonical form is determined by its reads, what an unwritten
location reads as after reset, and the trailer as numbers in both orders. -/

namespace Sys2Proof.Machine

/-! ## The canonical form is unique (log 7) -/

section
variable {α : Type} {cap : Nat} {b : Nat} {v : α} {rest : Memory α}

theorem Memory.wf_tail (h : Memory.wf cap ((b, v) :: rest)) : Memory.wf cap rest :=
  ⟨(List.pairwise_cons.1 h.1).2, fun c hc => h.2 c (List.mem_cons_of_mem _ hc)⟩

theorem Memory.read_head (b : Nat) (v : α) (rest : Memory α) : Memory.read ((b, v) :: rest) b = some v := if_pos rfl

/-- Behind its first location a canonical memory lists higher ones only. -/
theorem Memory.read_tail_of_le (h : Memory.wf cap ((b, v) :: rest)) {a : Nat} (ha : a ≤ b) :
    Memory.read rest a = none :=
  Memory.read_eq_none_of_lt fun c hc => Nat.lt_of_le_of_lt ha ((List.pairwise_cons.1 h.1).1 c hc)

/-- Below its first location a canonical memory lists nothing. -/
theorem Memory.read_cons_of_lt (h : Memory.wf cap ((b, v) :: rest)) {a : Nat} (ha : a < b) :
    Memory.read ((b, v) :: rest) a = none := by
  rw [Memory.read, if_neg (Nat.ne_of_lt ha), Memory.read_tail_of_le h (Nat.le_of_lt ha)]

/-- The first location of a canonical memory is not above one that is listed. -/
theorem Memory.head_le_of_read {a : Nat} {w : α} (h : Memory.wf cap ((b, v) :: rest))
    (ha : Memory.read ((b, v) :: rest) a = some w) : b ≤ a := by
  by_contra hlt
  rw [Memory.read_cons_of_lt h (Nat.not_le.1 hlt)] at ha
  cases ha

/-- The reads of a canonical memory behind its first location. -/
theorem Memory.read_tail (h : Memory.wf cap ((b, v) :: rest)) (a : Nat) :
    Memory.read rest a = if a = b then none else Memory.read ((b, v) :: rest) a := by
  split
  · exact Memory.read_tail_of_le h (Nat.le_of_eq ‹_›)
  · rw [Memory.read, if_neg ‹_›]

end

theorem Memory.eq_of_read_eq {α : Type} {cap : Nat} {m₁ m₂ : Memory α} (h₁ : Memory.wf cap m₁) (h₂ : Memory.wf cap m₂)
    (hread : ∀ a, Memory.read m₁ a = Memory.read m₂ a) : m₁ = m₂ := by
  induction m₁ generalizing m₂ with
  | nil =>
    cases m₂ with
    | nil => rfl
    | cons c rest =>
      have hc := (hread c.1).trans (Memory.read_head c.1 c.2 rest)
      cases hc
  | cons c₁ rest₁ ih =>
    obtain ⟨b₁, v₁⟩ := c₁
    cases m₂ with
    | nil =>
      have hc := (Memory.read_head b₁ v₁ rest₁).symm.trans (hread b₁)
      cases hc
    | cons c₂ rest₂ =>
      obtain ⟨b₂, v₂⟩ := c₂
      have hread₂ : Memory.read ((b₂, v₂) :: rest₂) b₁ = some v₁ := by rw [← hread, Memory.read_head]
      have hread₁ : Memory.read ((b₁, v₁) :: rest₁) b₂ = some v₂ := by rw [hread, Memory.read_head]
      obtain rfl : b₁ = b₂ := Nat.le_antisymm (Memory.head_le_of_read h₁ hread₁) (Memory.head_le_of_read h₂ hread₂)
      obtain rfl : v₂ = v₁ := by rw [Memory.read_head] at hread₂; exact Option.some_inj.1 hread₂
      have hrest : rest₁ = rest₂ := ih (Memory.wf_tail h₁) (Memory.wf_tail h₂) fun a => by
        rw [Memory.read_tail h₁, Memory.read_tail h₂, hread]
      rw [hrest]

/-- Settles O51: the first locations are equal, for each is the least that is listed, and so on behind them. -/
theorem canonicalMemoriesAreUnique : Obligations.CanonicalMemoriesAreUnique := by
  unfold Obligations.CanonicalMemoriesAreUnique
  exact fun α cap m₁ m₂ => Memory.eq_of_read_eq

/-! ## Reset -/

theorem get8_resetWith (p : Params) (k j : Nat) : get8 (State.resetWith p k) j = Config.freeByte k j := rfl

theorem getVal_resetWith (p : Params) (k i : Nat) : getVal (State.resetWith p k) i = Config.freeEntry k i := rfl

/-- Settles O44: each is a field of the state after reset, or a read of its empty memories. -/
theorem resetStateOfTheModel : Obligations.ResetStateOfTheModel := by
  unfold Obligations.ResetStateOfTheModel
  exact ⟨rfl, rfl, rfl, rfl, rfl, rfl, rfl, get8_resetWith _ 0, getVal_resetWith _ 0, rfl, rfl, rfl,
    fun p k => ⟨get8_resetWith p k, getVal_resetWith p k, rfl, rfl, rfl⟩⟩

/-! ## `APPEND_CRC` and `VALIDATE_CRC` -/

/-- `VALIDATE_CRC` as a comparison of numbers, in both orders of the trailer (R26, R73). -/
theorem validateCrc_iff_toNat (s : State) (total : Nat) :
    validateCrc s total = true ↔
      (get8 s (total - 2)).toNat = (trailerFirst s.params (crc16 (frameBytes s (total - 2)))).toNat ∧
        (get8 s (total - 1)).toNat = (trailerSecond s.params (crc16 (frameBytes s (total - 2)))).toNat := by
  rw [validateCrc_eq_true_iff, BitVec.toNat_inj, BitVec.toNat_inj]

/-- Settles O12: the trailer written and the trailer compared with are the same two bytes of the CRC. -/
theorem crcCollaboratorContract : Obligations.CrcCollaboratorContract := by
  unfold Obligations.CrcCollaboratorContract
  constructor
  · rintro len c s rfl
    have htrailer := trailer_toNat (get8_appendCrc_trailer len s) _ rfl
    rw [frameBytes_appendCrc] at htrailer
    refine ⟨fun hlow => ?_, fun hhigh => ?_, fun j h0 h1 => ?_, appendCrc_eq len s⟩
    · simpa [hlow] using htrailer
    · simpa [hhigh] using htrailer
    · rw [get8_appendCrc, if_neg h1, if_neg h0]
  · rintro total c s - rfl
    rw [validateCrc_iff_toNat, trailerFirst_toNat, trailerSecond_toNat]
    exact ⟨fun hlow => by simp [hlow], fun hhigh => by simp [hhigh]⟩

end Sys2Proof.Machine
end

section
/-! The wire frames in `FB` (R45 to R49): what a build command leaves is one frame, and a validate command accepts exactly
the frames of its response, with what EXTRACT then reads out of one. -/

namespace Sys2Proof.Machine

/-! ## Construction as storing one frame -/

section
variable {bc : Bool} {fc : Byte} {ra rc : Word} {s t : State}

theorem frameBytes_of_bldRdReq (h : exec (.bldRdReq bc fc ra rc) s = .next t) :
    frameBytes t 8 = readRequestFrame s.params (addrSel s bc) fc ra rc := by
  rw [exec_bldRdReq] at h
  cases h
  rw [frameBytes_withResult, frameBytes_readRequest]

theorem frameBytes_of_bldWrReq (h : exec (.bldWrReq bc fc ra rc) s = .next t) (hr : t.result = some .done) :
    frameBytes t (9 + 2 * rc.toNat) =
      writeRequestFrame s.params (addrSel s bc) fc ra rc (valEntries s rc.toNat) := by
  rw [bldWrReq_of_done h hr, frameBytes_withFb_withResult (buildWriteRequest_eq bc fc ra rc s),
    frameBytes_writeRequest]

end

/-- Settles O18: the bytes written are the frame's, and the frame is made of the operands, the identity and `VAL` alone. -/
theorem constructionRefinesTheFrameLayout : Obligations.ConstructionRefinesTheFrameLayout := by
  unfold Obligations.ConstructionRefinesTheFrameLayout
  exact ⟨fun bc fc ra rc s t => frameBytes_of_bldRdReq, fun bc fc ra rc s t => frameBytes_of_bldWrReq⟩

/-- Settles O19: byte 6 holds `2n mod 256` where bytes 4 and 5 hold `n`, and the trailer is made of the bytes written. -/
theorem byteCountWrapsSilently : Obligations.ByteCountWrapsSilently := by
  unfold Obligations.ByteCountWrapsSilently
  intro bc fc ra rc s hf hv
  have hexec := exec_bldWrReq_fits bc fc ra hf hv
  obtain ⟨hcrc, -, -⟩ := bldWrReq_writesValidFrame hexec rfl
  have hsix : (get8 (buildWriteRequest bc fc ra rc s) 6).toNat = 2 * rc.toNat % 256 := by
    rw [get8_writeRequest_byteCount, payloadByteCount_toNat]
  refine ⟨_, hexec, rfl, ?count, hcrc, hsix, ?wraps⟩
  case count =>
    obtain ⟨-, -, -, -, hhi, hlo⟩ := header_of_agrees_putHeader fun _ => get8_writeRequest_putHeader bc fc ra rc s
    exact (get16be_eq_iff _ 4 rc).2 ⟨hhi, hlo⟩
  case wraps =>
    rw [get8_withResult, hsix]
    omega

/-! ## A frame with its trailer -/

/-- `FB` holds some bytes with their trailer exactly when it holds the bytes and the CRC check over both passes. -/
theorem frameBytes_eq_withTrailer_iff (s : State) (bytes : List Byte) :
    frameBytes s (bytes.length + 2) = withTrailer s.params bytes ↔
      frameBytes s bytes.length = bytes ∧ validateCrc s (bytes.length + 2) = true := by
  rw [frameBytes_succ, frameBytes_succ, withTrailer, List.append_assoc, validateCrc_eq_true_iff, Nat.add_sub_cancel]
  constructor
  · intro h
    obtain ⟨hbytes, htrailer⟩ := List.append_inj h (frameBytes_length s bytes.length)
    simpa [hbytes] using htrailer
  · rintro ⟨hbytes, hfirst, hsecond⟩
    rw [hbytes] at hfirst hsecond ⊢
    simp [hfirst, ← hsecond]

/-! ## The write response -/

theorem frameBytes_eq_headerBytes_iff (s : State) (addr fc : Byte) (ra rc : Word) :
    frameBytes s 6 = headerBytes addr fc ra rc ↔
      get8 s 0 = addr ∧ get8 s 1 = fc ∧ get16be s 2 = ra ∧ get16be s 4 = rc := by
  simp [frameBytes, List.range_succ, headerBytes, get16be, joinBytes_eq_iff, and_assoc]

/-- The five checks of VAL.WRRSP are that `FB` holds the write response (R94 a). -/
theorem frameBytes_eq_writeResponseFrame_iff (bc : Bool) (fc : Byte) (ra rc : Word) (s : State) :
    frameBytes s 8 = writeResponseFrame s.params (addrSel s bc) fc ra rc ↔
      writeResponseHeaderOk bc fc ra rc s ∧ validateCrc s 8 = true := by
  rw [writeResponseHeaderOk, ← frameBytes_eq_headerBytes_iff]
  exact frameBytes_eq_withTrailer_iff s (headerBytes (addrSel s bc) fc ra rc)

/-- VAL.WRRSP answers whether `FB` holds the write response. -/
theorem exec_valWrRsp_eq_frame (bc : Bool) (fc : Byte) (ra rc : Word) (s : State) :
    exec (.valWrRsp bc fc ra rc) s =
      .next (s.withResult (some (.ok (frameBytes s 8 = writeResponseFrame s.params (addrSel s bc) fc ra rc)))) := by
  have hok : (decide (writeResponseHeaderOk bc fc ra rc s) && validateCrc s 8) =
      decide (frameBytes s 8 = writeResponseFrame s.params (addrSel s bc) fc ra rc) := by
    rw [Bool.eq_iff_iff, Bool.and_eq_true, decide_eq_true_iff, decide_eq_true_iff,
      frameBytes_eq_writeResponseFrame_iff]
  rw [exec_valWrRsp, hok]

/-- Two answers of one state are the same when their `OK` is. -/
theorem answersOk_iff (s : State) (b b' : Bool) :
    (Host.Outcome.next (s.withResult (some (.ok b))) : Host.Outcome State Fault Refusal) =
      .next (s.withResult (some (.ok b'))) ↔ b = b' :=
  ⟨fun h => by cases h; rfl, fun h => by rw [h]⟩

theorem exec_valWrRsp_accepts_iff (bc : Bool) (fc : Byte) (ra rc : Word) (s : State) :
    exec (.valWrRsp bc fc ra rc) s = .next (s.withResult (some (.ok true))) ↔
      frameBytes s 8 = writeResponseFrame s.params (addrSel s bc) fc ra rc := by
  rw [exec_valWrRsp_eq_frame, answersOk_iff, decide_eq_true_iff]

/-- Settles O21: the five checks compare every byte of the frame, and the write response has the layout of the read
request that BLD.RDREQ writes. -/
theorem valWrRspAcceptsExactlyTheEcho : Obligations.ValWrRspAcceptsExactlyTheEcho := by
  unfold Obligations.ValWrRspAcceptsExactlyTheEcho
  intro bc fc ra rc s
  refine ⟨exec_valWrRsp_accepts_iff bc fc ra rc s, fun t ht => ?_⟩
  rw [frameBytes_of_bldRdReq ht]
  exact exec_valWrRsp_accepts_iff bc fc ra rc s

/-- Settles O22: only one frame is accepted, and a changed byte makes `FB` hold another. -/
theorem changedByteOfWriteResponseIsRejected : Obligations.ChangedByteOfWriteResponseIsRejected := by
  unfold Obligations.ChangedByteOfWriteResponseIsRejected
  intro bc fc ra rc s j b h hj hb
  have hframe := (exec_valWrRsp_accepts_iff bc fc ra rc s).1 h
  have hchanged : frameBytes (put8 j b s) 8 ≠
      writeResponseFrame (put8 j b s).params (addrSel (put8 j b s) bc) fc ra rc := by
    intro hsame
    have hbyte := List.map_inj_left.1 (hsame.trans hframe.symm) j (List.mem_range.2 hj)
    rw [get8_put8_same] at hbyte
    exact hb hbyte
  rw [exec_valWrRsp_eq_frame, decide_eq_false hchanged]
  rfl

/-- Settles O23: the read request that BLD.RDREQ leaves is the write response of the same operands. -/
theorem builtReadRequestValidatesAsEcho : Obligations.BuiltReadRequestValidatesAsEcho := by
  unfold Obligations.BuiltReadRequestValidatesAsEcho
  intro bc fc ra rc s t h
  refine (exec_valWrRsp_accepts_iff bc fc ra rc t).2 ?_
  obtain ⟨hparams, hbroadcast, -⟩ := exec_unchanged h
  have haddr : addrSel t bc = addrSel s bc := by
    rw [addrSel, addrSel, hbroadcast, exec_slaveId h]
    rfl
  rw [frameBytes_of_bldRdReq h, hparams, haddr]
  rfl

/-! ## The read response -/

/-- The register values of a read response in `FB`: entry `i` at the offset where EXTRACT reads it (R33, R48). -/
def responseEntries (s : State) (n : Nat) : List Word := (List.range n).map fun i => get16be s (readPayloadOffset i)

@[simp] theorem responseEntries_length (s : State) (n : Nat) : (responseEntries s n).length = n := by
  simp [responseEntries]

theorem responseEntries_succ (s : State) (n : Nat) :
    responseEntries s (n + 1) = responseEntries s n ++ [get16be s (readPayloadOffset n)] := by
  simp [responseEntries, List.range_succ]

/-- The bytes of `FB` below the trailer of a read response: three bytes and the values. -/
theorem frameBytes_eq_responseEntries (s : State) (n : Nat) :
    frameBytes s (3 + 2 * n) =
      get8 s 0 :: get8 s 1 :: get8 s 2 :: payloadBytes (responseEntries s n) := by
  induction n with
  | zero => rfl
  | succ n ih =>
    rw [show 3 + 2 * (n + 1) = 3 + 2 * n + 1 + 1 by omega, frameBytes_succ, frameBytes_succ, ih, responseEntries_succ,
      payloadBytes_append]
    simp [payloadBytes, get16be, readPayloadOffset]

theorem payloadBytes_injective : Function.Injective payloadBytes := by
  intro us
  induction us with
  | nil => intro vs h; cases vs with
    | nil => rfl
    | cons v vs => cases h
  | cons u us ih => intro vs h; cases vs with
    | nil => cases h
    | cons v vs =>
      obtain ⟨hhi, hlo, htail⟩ : hiByte u = hiByte v ∧ loByte u = loByte v ∧ payloadBytes us = payloadBytes vs := by
        simpa [payloadBytes] using h
      rw [← joinBytes_split u, ← joinBytes_split v, hhi, hlo, ih htail]

/-- The byte-count byte of a read response of at most 127 values is twice their number (R48). -/
theorem eq_trunc8_iff {n : Nat} (hn : n ≤ 127) (b : Byte) : b = trunc8 (2 * n) ↔ b.toNat = 2 * n := by
  rw [← BitVec.toNat_inj, trunc8, BitVec.toNat_ofNat, Nat.mod_eq_of_lt (by omega)]

/-- `FB` holds the read response of some values exactly when the checks of VAL.RDRSP pass and the values are those in the
payload. -/
theorem frameBytes_eq_readResponseFrame_iff (bc : Bool) (fc : Byte) {rc : Word} (hrc : rc.toNat ≤ 127) (s : State)
    {vals : List Word} (hvals : vals.length = rc.toNat) :
    frameBytes s (5 + 2 * rc.toNat) = readResponseFrame s.params (addrSel s bc) fc vals ↔
      readResponsePrefixOk bc fc rc s ∧ responseEntries s rc.toNat = vals ∧
        validateCrc s (5 + 2 * rc.toNat) = true := by
  have hlength : (addrSel s bc :: fc :: trunc8 (2 * vals.length) :: payloadBytes vals).length = 3 + 2 * rc.toNat := by
    simp [hvals]; omega
  have h := frameBytes_eq_withTrailer_iff s (addrSel s bc :: fc :: trunc8 (2 * vals.length) :: payloadBytes vals)
  rw [hlength, show 3 + 2 * rc.toNat + 2 = 5 + 2 * rc.toNat by omega, frameBytes_eq_responseEntries] at h
  rw [readResponseFrame, h, List.cons_eq_cons, List.cons_eq_cons, List.cons_eq_cons, payloadBytes_injective.eq_iff,
    hvals, eq_trunc8_iff hrc]
  simp only [and_assoc]

/-- VAL.RDRSP accepts exactly when its checks pass and the frame fits. -/
theorem exec_valRdRsp_accepts_iff (bc : Bool) (fc : Byte) (rc : Word) (s : State) :
    exec (.valRdRsp bc fc rc) s = .next (s.withResult (some (.ok true))) ↔
      readResponsePrefixOk bc fc rc s ∧ 5 + 2 * rc.toNat ≤ s.params.fbCap ∧
        validateCrc s (5 + 2 * rc.toNat) = true := by
  rw [exec]
  by_cases hp : readResponsePrefixOk bc fc rc s
  · by_cases hf : s.params.fbCap < 5 + 2 * rc.toNat
    · rw [execValRdRsp_frameOverrun hp hf]
      exact iff_of_false nofun fun h => Nat.not_lt.2 h.2.1 hf
    · rw [execValRdRsp_crc hp hf, answersOk_iff]
      exact ⟨fun h => ⟨hp, Nat.not_lt.1 hf, h⟩, fun h => h.2.2⟩
  · rw [execValRdRsp_prefix hp, answersOk_iff]
    exact iff_of_false nofun fun h => hp h.1

/-- Check 3 compares a byte with `2n`, so that `n` is at most 127 where it passes (R96 d). -/
theorem le_127_of_readResponsePrefixOk {bc : Bool} {fc : Byte} {rc : Word} {s : State}
    (h : readResponsePrefixOk bc fc rc s) : rc.toNat ≤ 127 := by
  obtain ⟨-, -, hcount⟩ := h
  have hbyte := (get8 s 2).isLt
  omega

/-- Settles O25: check 3 fails for `n ≥ 128`, and it stands before the capacity test. -/
theorem valRdRspFailsForLargeCounts : Obligations.ValRdRspFailsForLargeCounts := by
  unfold Obligations.ValRdRspFailsForLargeCounts
  refine ⟨fun bc fc rc s hrc => ?large, fun bc fc rc s t h hr => ?overrun⟩
  case large =>
    refine execValRdRsp_prefix fun hp => ?_
    have := le_127_of_readResponsePrefixOk hp
    omega
  case overrun =>
    obtain ⟨u, r, hu, hres, hends⟩ := exec_endsWith (.valRdRsp bc fc rc) s
    cases h.symm.trans hu
    obtain rfl : r = .fault .frameOverrun := Option.some_inj.1 (hres.symm.trans hr)
    obtain ⟨haddr, hfc, hcount, hover⟩ := hends.frameOverrun_iff.1 rfl
    have := le_127_of_readResponsePrefixOk (s := s) ⟨haddr, hfc, hcount⟩
    omega

/-- Settles O26: where the checks pass the values are those in the payload, and check 3 bounds their number. -/
theorem valRdRspAcceptsExactlyReadResponses : Obligations.ValRdRspAcceptsExactlyReadResponses := by
  unfold Obligations.ValRdRspAcceptsExactlyReadResponses
  intro bc fc rc s
  refine (exec_valRdRsp_accepts_iff bc fc rc s).trans ⟨?_, ?_⟩
  · rintro ⟨hp, hfits, hcrc⟩
    have hrc := le_127_of_readResponsePrefixOk hp
    exact ⟨hrc, hfits, responseEntries s rc.toNat, responseEntries_length s rc.toNat,
      (frameBytes_eq_readResponseFrame_iff bc fc hrc s (responseEntries_length s rc.toNat)).2 ⟨hp, rfl, hcrc⟩⟩
  · rintro ⟨hrc, hfits, vals, hvals, hframe⟩
    obtain ⟨hp, -, hcrc⟩ := (frameBytes_eq_readResponseFrame_iff bc fc hrc s hvals).1 hframe
    exact ⟨hp, hfits, hcrc⟩

/-- EXTRACT leaves in `VAL` the values of the read response in `FB`. -/
theorem valEntries_takePayload (s : State) (n : Nat) : valEntries (takePayload n s) n = responseEntries s n :=
  List.map_congr_left fun i hi => by rw [getVal_takePayload, if_pos (List.mem_range.1 hi)]

/-- Settles O28: the frame's values are those at the offsets where EXTRACT reads, and VAL.RDRSP leaves `FB` as it is. -/
theorem validatedReadResponseIsExtractedExactly : Obligations.ValidatedReadResponseIsExtractedExactly := by
  unfold Obligations.ValidatedReadResponseIsExtractedExactly
  intro bc fc rc vals s hvals hrc hfits hentries hframe
  obtain ⟨hp, hpayload, hcrc⟩ := (frameBytes_eq_readResponseFrame_iff bc fc hrc s hvals).1 hframe
  refine ⟨_, _, (exec_valRdRsp_accepts_iff bc fc rc s).2 ⟨hp, hfits, hcrc⟩, rfl,
    (exec_withResult _ s _).trans (exec_extract_fits (by omega) hentries), rfl, ?_⟩
  exact (valEntries_takePayload s rc.toNat).trans hpayload

/-! ## A new slave identifier (R102) -/

/-- Settles O30: a command with `bc = 0` reads `SLAVE_ID`, which holds the new identifier, and `FB` as it was; a command
with `bc = 1` does not read `SLAVE_ID`. -/
theorem setSlaveTakesEffectForTheNextCommand : Obligations.SetSlaveTakesEffectForTheNextCommand := by
  unfold Obligations.SetSlaveTakesEffectForTheNextCommand
  intro id s t h
  cases (exec_setSlave id s).symm.trans h
  refine ⟨fun j => rfl, fun fc ra rc => ⟨?bldRdReq, fun hf hv => ?bldWrReq, ?valWrRsp, fun hne => ?wrRejects, ?valRdRsp,
    fun hne => ?rdRejects⟩, fun i hi => ?broadcast⟩
  case bldRdReq =>
    have hu := exec_bldRdReq false fc ra rc ((s.withSlaveId id).withResult (some .done))
    exact ⟨_, hu, rfl, get8_zero_of_bldRdReq hu⟩
  case bldWrReq =>
    have hu := exec_bldWrReq_fits (s := (s.withSlaveId id).withResult (some .done)) false fc ra hf hv
    exact ⟨_, hu, rfl, get8_zero_of_bldWrReq hu rfl⟩
  case valWrRsp =>
    refine (exec_valWrRsp_accepts_iff false fc ra rc _).trans ?_
    rw [frameBytes_eq_writeResponseFrame_iff, writeResponseHeaderOk, and_assoc, and_assoc, and_assoc]
    exact Iff.rfl
  case wrRejects => exact exec_valWrRsp_of_address_ne hne
  case valRdRsp =>
    refine (exec_valRdRsp_accepts_iff false fc rc _).trans ?_
    rw [readResponsePrefixOk, and_assoc, and_assoc]
    exact Iff.rfl
  case rdRejects => exact exec_valRdRsp_of_address_ne hne
  case broadcast =>
    obtain ⟨u', hu'⟩ := exec_completes i s
    have hset : ∀ id', i ≠ .setSlave id' := by rintro id' rfl; cases hi
    have hselect : addressOperand i ≠ some false := by rw [hi]; decide
    exact ⟨_, u', (exec_withResult i (s.withSlaveId id) _).trans (exec_slaveId_irrelevant id hselect hset hu'), hu', rfl⟩

end Sys2Proof.Machine
end

section
/-! The footprint of a command (R21, R23, R31, R34, R131): what it leaves unchanged, on what its result and the locations
it writes depend, and that a second run of it writes what it finds. -/

namespace Sys2Proof.Machine

/-! ## What a command leaves unchanged -/

/-- What EXTRACT's loop leaves written in `VAL`. -/
theorem read_takePayload (n : Nat) (s : State) (i : Nat) :
    Memory.read (takePayload n s).val i =
      if i < n then some (get16be s (readPayloadOffset i)) else Memory.read s.val i := by
  induction n with
  | zero => rfl
  | succ n ih =>
    rw [takePayload_succ, putVal_val, Memory.read_store, ih]
    by_cases hi : i = n
    · subst hi; simp
    · by_cases hn : i < n
      · rw [if_neg hi, if_pos hn, if_pos (by omega)]
      · rw [if_neg hi, if_neg hn, if_neg (by omega)]

section
variable {i : Instr} {s t : State} (h : exec i s = .next t)
include h

theorem readFb_of_not_writesFb {j : Nat} (hj : ¬ writesFb i j) : Memory.read t.fb j = Memory.read s.fb j := by
  obtain ⟨r, rfl⟩ | ⟨bc, fc, ra, rc, rfl, rfl⟩ | ⟨bc, fc, ra, rc, rfl, -, -, rfl⟩ | ⟨rc, rfl, -, -, rfl⟩ | ⟨id, rfl, rfl⟩ :=
    exec_cases h
  case inr.inl => exact (read_readRequest bc fc ra rc s j).2 (Nat.not_lt.1 hj)
  case inr.inr.inl => exact (read_writeRequest bc fc ra rc s j).2 (Nat.not_lt.1 hj)
  all_goals simp only [State.withResult_fb, State.withVal_fb, State.withSlaveId_fb]

theorem readVal_of_not_writesVal {j : Nat} (hj : ¬ writesVal i j) : Memory.read t.val j = Memory.read s.val j := by
  obtain ⟨r, rfl⟩ | ⟨bc, fc, ra, rc, rfl, rfl⟩ | ⟨bc, fc, ra, rc, rfl, -, -, rfl⟩ | ⟨rc, rfl, -, -, rfl⟩ | ⟨id, rfl, rfl⟩ :=
    exec_cases h
  case inr.inr.inr.inl => exact (read_takePayload _ s j).trans (if_neg hj)
  all_goals simp only [State.withResult_val, State.withFb_val, State.withSlaveId_val]

theorem get8_of_not_writesFb {j : Nat} (hj : ¬ writesFb i j) : get8 t j = get8 s j := by
  obtain ⟨-, -, hepoch, -⟩ := exec_unchanged h
  rw [get8, get8, readFb_of_not_writesFb h hj, hepoch]

theorem getVal_of_not_writesVal {j : Nat} (hj : ¬ writesVal i j) : getVal t j = getVal s j := by
  obtain ⟨-, -, hepoch, -⟩ := exec_unchanged h
  rw [getVal, getVal, readVal_of_not_writesVal h hj, hepoch]

end

/-- Settles O34: of the ways a command can end, the build commands write `FB`, below their frame's length, and EXTRACT
`VAL`, below its count. -/
theorem commandsWriteOnlyTheirFootprint : Obligations.CommandsWriteOnlyTheirFootprint := by
  unfold Obligations.CommandsWriteOnlyTheirFootprint
  intro i s
  obtain ⟨t, h⟩ := exec_completes i s
  obtain ⟨hparams, hbroadcast, hepoch, hpending, hhostRead⟩ := exec_unchanged h
  refine ⟨t, h, hparams, hbroadcast, hepoch, hpending, hhostRead, fun hset => ?_, fun j => get8_of_not_writesFb h,
    fun j => getVal_of_not_writesVal h⟩
  rw [exec_slaveId h, slaveIdAfter_of_ne_setSlave _ hset]

/-! ## On what a command's result and its written locations depend -/

/-- The result a command returns, by the capacities, the selected identity and the bytes it reads (R112). -/
def resultOf : Instr → State → Result
  | .lenRdReq, _ => .len 8
  | .lenRdRsp rc, _ => .len (BitVec.ofNat 18 (5 + 2 * rc.toNat))
  | .lenWrReq rc, _ => .len (BitVec.ofNat 18 (9 + 2 * rc.toNat))
  | .lenWrRsp, _ => .len 8
  | .bldRdReq _ _ _ _, _ => .done
  | .bldWrReq _ _ _ rc, s =>
    if s.params.fbCap < 9 + 2 * rc.toNat then .fault .frameOverrun
    else if s.params.valCap < rc.toNat then .fault .valueOverrun
    else .done
  | .valWrRsp bc fc ra rc, s => .ok (frameBytes s 8 = writeResponseFrame s.params (addrSel s bc) fc ra rc)
  | .valRdRsp bc fc rc, s =>
    if readResponsePrefixOk bc fc rc s then
      if s.params.fbCap < 5 + 2 * rc.toNat then .fault .frameOverrun else .ok (validateCrc s (5 + 2 * rc.toNat))
    else .ok false
  | .extract rc, s =>
    if s.params.fbCap < 3 + 2 * rc.toNat then .fault .frameOverrun
    else if s.params.valCap < rc.toNat then .fault .valueOverrun
    else .done
  | .setSlave _, _ => .done

theorem exec_result {i : Instr} {s t : State} (h : exec i s = .next t) : t.result = some (resultOf i s) := by
  cases i with
  | lenRdReq => cases h; rfl
  | lenRdRsp rc => cases h; rfl
  | lenWrReq rc => cases h; rfl
  | lenWrRsp => cases h; rfl
  | bldRdReq bc fc ra rc => cases (exec_bldRdReq bc fc ra rc s).symm.trans h; rfl
  | bldWrReq bc fc ra rc =>
    rw [exec] at h
    by_cases hf : s.params.fbCap < 9 + 2 * rc.toNat
    · rw [execBldWrReq_frameOverrun _ _ _ hf] at h
      cases h; rw [resultOf, if_pos hf]; rfl
    · by_cases hv : s.params.valCap < rc.toNat
      · rw [execBldWrReq_valueOverrun _ _ _ hf hv] at h
        cases h; rw [resultOf, if_neg hf, if_pos hv]; rfl
      · rw [execBldWrReq_fits _ _ _ hf hv] at h
        cases h; rw [resultOf, if_neg hf, if_neg hv]; rfl
  | valWrRsp bc fc ra rc => cases (exec_valWrRsp_eq_frame bc fc ra rc s).symm.trans h; rfl
  | valRdRsp bc fc rc =>
    rw [exec] at h
    by_cases hp : readResponsePrefixOk bc fc rc s
    · by_cases hf : s.params.fbCap < 5 + 2 * rc.toNat
      · rw [execValRdRsp_frameOverrun hp hf] at h
        cases h; rw [resultOf, if_pos hp, if_pos hf]; rfl
      · rw [execValRdRsp_crc hp hf] at h
        cases h; rw [resultOf, if_pos hp, if_neg hf]; rfl
    · rw [execValRdRsp_prefix hp] at h
      cases h; rw [resultOf, if_neg hp]; rfl
  | extract rc =>
    rw [exec] at h
    by_cases hf : s.params.fbCap < 3 + 2 * rc.toNat
    · rw [execExtract_frameOverrun hf] at h
      cases h; rw [resultOf, if_pos hf]; rfl
    · by_cases hv : s.params.valCap < rc.toNat
      · rw [execExtract_valueOverrun hf hv] at h
        cases h; rw [resultOf, if_neg hf, if_pos hv]; rfl
      · rw [execExtract_fits hf hv] at h
        cases h; rw [resultOf, if_neg hf, if_neg hv]; rfl
  | setSlave id => cases h; rfl

section
variable {i : Instr} {s t : State} (hok : ∀ f, t.result ≠ some (.fault f))
include hok

/-- A command that does not fault has met neither overrun condition. -/
theorem not_overruns_of_no_fault (h : exec i s = .next t) : ¬ overrunsFrame i s ∧ ¬ overrunsValues i s := by
  obtain ⟨u, r, hu, hres, hends⟩ := exec_endsWith i s
  cases h.symm.trans hu
  cases hends with
  | frameOverrun hf => exact absurd hres (hok _)
  | valueOverrun hf hv => exact absurd hres (hok _)
  | answers hf hv hr => exact ⟨hf, hv⟩

theorem done_of_bldWrReq {bc : Bool} {fc : Byte} {ra rc : Word} (h : exec (.bldWrReq bc fc ra rc) s = .next t) :
    t.result = some .done := by
  obtain ⟨hf, hv⟩ := not_overruns_of_no_fault hok h
  cases (exec_bldWrReq_fits bc fc ra (Nat.not_lt.1 hf) (Nat.not_lt.1 hv)).symm.trans h
  rfl

theorem getVal_of_extract {rc : Word} (h : exec (.extract rc) s = .next t) {j : Nat} (hj : j < rc.toNat) :
    getVal t j = get16be s (readPayloadOffset j) := by
  obtain ⟨hf, hv⟩ := not_overruns_of_no_fault hok h
  cases (exec_extract_fits (Nat.not_lt.1 hf) (Nat.not_lt.1 hv)).symm.trans h
  rw [getVal_withResult, getVal_takePayload, if_pos hj]

end

theorem get8_eq_of_frameBytes_eq {s t : State} {len : Nat} (h : frameBytes s len = frameBytes t len) {j : Nat}
    (hj : j < len) : get8 s j = get8 t j :=
  List.map_inj_left.1 h j (List.mem_range.2 hj)

/-- Two states of one block that hold the same identities and the same in all that `i` reads (R23). -/
structure AgreeOnReads (i : Instr) (s₁ s₂ : State) : Prop where
  params : s₁.params = s₂.params
  slaveId : s₁.slaveId = s₂.slaveId
  broadcastId : s₁.broadcastId = s₂.broadcastId
  fb : ∀ j, readsFb i j → get8 s₁ j = get8 s₂ j
  val : ∀ j, readsVal i j → getVal s₁ j = getVal s₂ j

section
variable {i : Instr} {s₁ s₂ t₁ t₂ : State}

theorem AgreeOnReads.addrSel_eq (h : AgreeOnReads i s₁ s₂) (bc : Bool) : addrSel s₁ bc = addrSel s₂ bc := by
  rw [addrSel, addrSel, h.slaveId, h.broadcastId]

theorem AgreeOnReads.resultOf_eq (h : AgreeOnReads i s₁ s₂) : resultOf i s₁ = resultOf i s₂ := by
  cases i with
  | bldWrReq bc fc ra rc => rw [resultOf, resultOf, h.params]
  | valWrRsp bc fc ra rc =>
    have hframe : frameBytes s₁ 8 = frameBytes s₂ 8 := frameBytes_congr h.fb
    rw [resultOf, resultOf, hframe, h.params, h.addrSel_eq]
  | valRdRsp bc fc rc =>
    have hbytes : ∀ j < 5 + 2 * rc.toNat, get8 s₁ j = get8 s₂ j := h.fb
    have hprefix := readResponsePrefixOk_congr (fc := fc) (rc := rc) (h.addrSel_eq bc) fun j hj => hbytes j (by omega)
    rw [resultOf, resultOf, validateCrc_congr h.params (by omega) hbytes, h.params]
    simp only [hprefix]
  | extract rc => rw [resultOf, resultOf, h.params]
  | _ => rfl

theorem AgreeOnReads.result_eq (h : AgreeOnReads i s₁ s₂) (h₁ : exec i s₁ = .next t₁) (h₂ : exec i s₂ = .next t₂) :
    t₁.result = t₂.result := by
  rw [exec_result h₁, exec_result h₂, h.resultOf_eq]

theorem AgreeOnReads.get8_eq (h : AgreeOnReads i s₁ s₂) (h₁ : exec i s₁ = .next t₁) (h₂ : exec i s₂ = .next t₂)
    (hok : ∀ f, t₁.result ≠ some (.fault f)) {j : Nat} (hj : writesFb i j) : get8 t₁ j = get8 t₂ j := by
  cases i with
  | bldRdReq bc fc ra rc =>
    have hframe : frameBytes t₁ 8 = frameBytes t₂ 8 := by
      rw [frameBytes_of_bldRdReq h₁, frameBytes_of_bldRdReq h₂, h.params, h.addrSel_eq]
    exact get8_eq_of_frameBytes_eq hframe hj
  | bldWrReq bc fc ra rc =>
    have hdone₁ := done_of_bldWrReq hok h₁
    have hdone₂ : t₂.result = some .done := (h.result_eq h₁ h₂).symm.trans hdone₁
    have hframe : frameBytes t₁ (9 + 2 * rc.toNat) = frameBytes t₂ (9 + 2 * rc.toNat) := by
      rw [frameBytes_of_bldWrReq h₁ hdone₁, frameBytes_of_bldWrReq h₂ hdone₂, h.params, h.addrSel_eq,
        valEntries_congr (t := s₁) (s := s₂) h.val]
    exact get8_eq_of_frameBytes_eq hframe hj
  | _ => exact hj.elim

theorem AgreeOnReads.getVal_eq (h : AgreeOnReads i s₁ s₂) (h₁ : exec i s₁ = .next t₁) (h₂ : exec i s₂ = .next t₂)
    (hok : ∀ f, t₁.result ≠ some (.fault f)) {j : Nat} (hj : writesVal i j) : getVal t₁ j = getVal t₂ j := by
  cases i with
  | extract rc =>
    have hok₂ : ∀ f, t₂.result ≠ some (.fault f) := h.result_eq h₁ h₂ ▸ hok
    have hread : readPayloadOffset j = 3 + 2 * j := rfl
    have hspan : ∀ k, 3 ≤ k → k < 3 + 2 * rc.toNat → get8 s₁ k = get8 s₂ k := fun k h3 hk => h.fb k ⟨h3, hk⟩
    have hrc : j < rc.toNat := hj
    rw [getVal_of_extract hok h₁ hj, getVal_of_extract hok₂ h₂ hj,
      get16be_congr (hspan _ (by omega) (by omega)) (hspan _ (by omega) (by omega))]
  | _ => exact hj.elim

end

/-- Settles O35: the result is a function of what is read, and the bytes and entries written are made of the operands, the
selected identity and what is read. -/
theorem resultsDependOnTheFootprintOnly : Obligations.ResultsDependOnTheFootprintOnly := by
  unfold Obligations.ResultsDependOnTheFootprintOnly
  intro i s₁ s₂ t₁ t₂ hparams hslave hbroadcast hfb hval h₁ h₂
  have hagree : AgreeOnReads i s₁ s₂ := ⟨hparams, hslave, hbroadcast, hfb, hval⟩
  refine ⟨hagree.result_eq h₁ h₂, ?slaveId,
    fun hok => ⟨fun j => hagree.get8_eq h₁ h₂ hok, fun j => hagree.getVal_eq h₁ h₂ hok⟩⟩
  case slaveId => rw [exec_slaveId h₁, exec_slaveId h₂, hslave]

/-! ## Free values (R131) -/

theorem get8_withEpoch {s : State} {j : Nat} (h : (Memory.read s.fb j).isSome) (k : Nat) :
    get8 { s with epoch := k } j = get8 s j := by
  obtain ⟨b, hb⟩ := Option.isSome_iff_exists.1 h
  simp [get8, hb]

theorem getVal_withEpoch {s : State} {j : Nat} (h : (Memory.read s.val j).isSome) (k : Nat) :
    getVal { s with epoch := k } j = getVal s j := by
  obtain ⟨v, hv⟩ := Option.isSome_iff_exists.1 h
  simp [getVal, hv]

/-- Settles O36: what has been written reads the same for every number of the reset, and a command depends on no more. -/
theorem writtenFootprintHidesFreeValues : Obligations.WrittenFootprintHidesFreeValues := by
  unfold Obligations.WrittenFootprintHidesFreeValues
  rintro i s t k ⟨hfb, hval⟩ h
  obtain ⟨hparams, hbroadcast, -, hpending, hhostRead⟩ := exec_unchanged h
  rw [exec_congr (s := s) (s' := { s with epoch := k }) rfl rfl rfl (fun _ _ => rfl)
    (fun j hj => get8_withEpoch (hfb j hj) k) (fun j hj => getVal_withEpoch (hval j hj) k) h]
  congr 1
  exact State.ext hparams.symm (exec_slaveId h).symm hbroadcast.symm rfl rfl rfl hpending.symm rfl hhostRead.symm

/-! ## A command run again -/

/-- No command reads a location that it writes. -/
theorem not_writes_of_reads (i : Instr) (j : Nat) :
    (readsFb i j → ¬ writesFb i j) ∧ (readsVal i j → ¬ writesVal i j) := by
  cases i <;> simp [readsFb, writesFb, readsVal, writesVal]

/-- What a command reads is after it as it was before. -/
theorem agreeOnReads_of_exec {i : Instr} {s t : State} (hset : ∀ id, i ≠ .setSlave id) (h : exec i s = .next t) :
    AgreeOnReads i s t := by
  obtain ⟨hparams, hbroadcast, -⟩ := exec_unchanged h
  have hslave : t.slaveId = s.slaveId := by rw [exec_slaveId h, slaveIdAfter_of_ne_setSlave _ hset]
  exact ⟨hparams.symm, hslave.symm, hbroadcast.symm,
    fun j hj => (get8_of_not_writesFb h ((not_writes_of_reads i j).1 hj)).symm,
    fun j hj => (getVal_of_not_writesVal h ((not_writes_of_reads i j).2 hj)).symm⟩

section
variable {i : Instr} {s t : State} (hok : ∀ f, t.result ≠ some (.fault f)) (h : exec i s = .next t)
include hok h

theorem readFb_isSome_of_writesFb {j : Nat} (hj : writesFb i j) : (Memory.read t.fb j).isSome := by
  cases i with
  | bldRdReq bc fc ra rc =>
    obtain ⟨-, hwritten, -⟩ := bldRdReq_writesValidFrame h
    exact hwritten j hj
  | bldWrReq bc fc ra rc =>
    obtain ⟨-, hwritten, -⟩ := bldWrReq_writesValidFrame h (done_of_bldWrReq hok h)
    exact hwritten j hj
  | _ => exact hj.elim

theorem readVal_isSome_of_writesVal {j : Nat} (hj : writesVal i j) : (Memory.read t.val j).isSome := by
  cases i with
  | extract rc =>
    obtain ⟨hf, hv⟩ := not_overruns_of_no_fault hok h
    cases (exec_extract_fits (Nat.not_lt.1 hf) (Nat.not_lt.1 hv)).symm.trans h
    rw [State.withResult_val, read_takePayload, if_pos (show j < rc.toNat from hj)]
    rfl
  | _ => exact hj.elim

end

/-- What a location reads as is what it was last written with, where it was written. -/
theorem read_eq_some_of_isSome {s : State} {j : Nat} :
    ((Memory.read s.fb j).isSome → Memory.read s.fb j = some (get8 s j)) ∧
      ((Memory.read s.val j).isSome → Memory.read s.val j = some (getVal s j)) := by
  constructor <;> intro h <;> obtain ⟨x, hx⟩ := Option.isSome_iff_exists.1 h
  · rw [get8, hx, Option.getD_some]
  · rw [getVal, hx, Option.getD_some]

section
variable {i : Instr} {s t u : State} (hs : s.Inv) (hset : ∀ id, i ≠ .setSlave id)
  (hok : ∀ f, t.result ≠ some (.fault f)) (h : exec i s = .next t) (hu : exec i t = .next u)
include hs hset hok h hu

/-- The second run writes the bytes that are there: canonical memories are determined by their reads. -/
theorem fb_eq_of_exec_again : u.fb = t.fb := by
  have hagree := agreeOnReads_of_exec hset h
  have hok' : ∀ f, u.result ≠ some (.fault f) := hagree.result_eq h hu ▸ hok
  have ht : t.Inv := exec_keeps_inv hs h
  obtain ⟨hparams, -⟩ := exec_unchanged hu
  refine Memory.eq_of_read_eq (hparams ▸ (exec_keeps_inv ht hu).fbWf) ht.fbWf fun j => ?_
  by_cases hj : writesFb i j
  · rw [read_eq_some_of_isSome.1 (readFb_isSome_of_writesFb hok' hu hj),
      read_eq_some_of_isSome.1 (readFb_isSome_of_writesFb hok h hj), hagree.get8_eq h hu hok hj]
  · exact readFb_of_not_writesFb hu hj

/-- The second run writes the entries that are there. -/
theorem val_eq_of_exec_again : u.val = t.val := by
  have hagree := agreeOnReads_of_exec hset h
  have hok' : ∀ f, u.result ≠ some (.fault f) := hagree.result_eq h hu ▸ hok
  have ht : t.Inv := exec_keeps_inv hs h
  obtain ⟨hparams, -⟩ := exec_unchanged hu
  refine Memory.eq_of_read_eq (hparams ▸ (exec_keeps_inv ht hu).valWf) ht.valWf fun j => ?_
  by_cases hj : writesVal i j
  · rw [read_eq_some_of_isSome.2 (readVal_isSome_of_writesVal hok' hu hj),
      read_eq_some_of_isSome.2 (readVal_isSome_of_writesVal hok h hj), hagree.getVal_eq h hu hok hj]
  · exact readVal_of_not_writesVal hu hj

theorem eq_of_exec_again : u = t := by
  obtain ⟨hparams, hbroadcast, hepoch, hpending, hhostRead⟩ := exec_unchanged hu
  have hslave : u.slaveId = t.slaveId := by rw [exec_slaveId hu, slaveIdAfter_of_ne_setSlave _ hset]
  have hresult : u.result = t.result := ((agreeOnReads_of_exec hset h).result_eq h hu).symm
  exact State.ext hparams hslave hbroadcast (fb_eq_of_exec_again hs hset hok h hu)
    (val_eq_of_exec_again hs hset hok h hu) hepoch hpending hresult hhostRead

end

/-- Settles O37: a fault leaves the state it found, SET.SLAVE reads none, and every other command finds what it reads as it
was, so that it writes what is there. -/
theorem repeatingACommandChangesNothing : Obligations.RepeatingACommandChangesNothing := by
  unfold Obligations.RepeatingACommandChangesNothing
  intro i s t hs h
  by_cases hset : ∃ id, i = .setSlave id
  · obtain ⟨id, rfl⟩ := hset
    cases h; rfl
  by_cases hfault : ∃ f, t.result = some (.fault f)
  · obtain ⟨f, hf⟩ := hfault
    conv_lhs => rw [exec_of_fault h hf, exec_withResult]
    exact h
  · obtain ⟨u, hu⟩ := exec_completes i t
    rw [hu, eq_of_exec_again hs (not_exists.1 hset) (not_exists.1 hfault) h hu]

end Sys2Proof.Machine
end
